-- ==== Sys2Proof/Word.lean ====
section
/-! DEFINITION. The words of the block: the fixed widths of 00_scope.md R9, and the 8-byte channel record of
30_encoding.md R70 and R71 as a structure of its eight named bytes. -/

namespace Sys2Proof

/-- A byte of a record, or an affine input x (00_scope.md R9). Bit 7 is the most significant bit (R10). -/
abbrev Byte := BitVec 8

/-- A BankKey or a delta key, the ordered pair packed as {first, second} (30_encoding.md R77). -/
abbrev Key := BitVec 16

/-- A raw tone index 0..63 (00_scope.md R14, 90_conflicts.md C2). -/
abbrev RawIndex := BitVec 6

/-- A tone-label code (30_encoding.md R80). -/
abbrev LabelCode := BitVec 7

/-- A frequency port: two's complement, unit 0.001 MHz (30_encoding.md R79). -/
abbrev FreqWord := BitVec 32

/-- A record byte number, or a bit number, 0..7 (10_state.md R31, R32). -/
abbrev Selector := BitVec 3

/-- The channel record: group A is record bytes 0..3, group B record bytes 4..7 (30_encoding.md R71). -/
structure Record where
  a0 : Byte
  a1 : Byte
  a2 : Byte
  a3 : Byte
  b0 : Byte
  b1 : Byte
  b2 : Byte
  b3 : Byte
  deriving DecidableEq, Repr

end Sys2Proof
end

