-- ==== Sys2Proof/Config.lean ====
section
/-! DEFINITION. The configuration the host loads once (10_state.md R25 to R33), as plain data; the one free value of
the model; and CFG-T, the illustrative configuration of 95_test_vectors.md section 2.

Every parameter the spec marks OPEN is a field of `Configuration`, so a statement over every state is a statement
over every configuration (00_scope.md R8). Which configurations may be loaded is `Configuration.legal`
(Machine/Initialise.lean). -/

namespace Sys2Proof

/-- RX_PATH (10_state.md R33): which path feeds the channel-level RX index. -/
inductive RxPath where
  /-- Value 0: the RXIDX output of the Bit Index Extractor. -/
  | extractor
  /-- Value 1: the AFFDEC output for the RX BankKey. -/
  | affine
  deriving DecidableEq, Repr

/-- An AffineModel (10_state.md R28). -/
structure AffineModel where
  /-- M, the 6×8 binary matrix: `m[i]` is row i, and its bit k is M[i][k], which multiplies x[k]. -/
  m : Vector (BitVec 8) 6
  /-- C, the constant vector: bit i is XORed into index bit i. -/
  c : BitVec 6
  /-- SUP, the supported-index mask: bit j is 1 when index j is in the bank's range. Its default is {0..33}. -/
  sup : BitVec 64 := 0x3FFFFFFFF
  deriving DecidableEq, Repr

/-- RX_BANK_KEY_SEL (10_state.md R31): the numbers of the two record bytes that form the RX BankKey, in order. -/
structure BankKeySel where
  first  : Selector
  second : Selector
  deriving DecidableEq, Repr

/-- FOLLOW_SEL (10_state.md R32): the byte number and the bit number of the follow flag. -/
structure FollowSel where
  byte : Selector
  bit  : Selector
  deriving DecidableEq, Repr

/-- The configuration state of the block (10_state.md R25 to R33). A partial map is the list of its entries. -/
structure Configuration where
  /-- TONE_LABELS (R26): 34 strings, OPEN but for entry 0. -/
  toneLabels   : Vector String 34
  /-- BANK_REGISTRY (R27): a partial map from BankKey to AffineModel, OPEN. -/
  bankRegistry : List (Key × AffineModel)
  /-- TX_DELTA (R30): a partial map from (A1,A2) to a correction in units of 0.001 MHz, OPEN. -/
  txDelta      : List (Key × Int)
  /-- RX_DELTA (R30): a partial map from (B1,B2) to a correction in units of 0.001 MHz, OPEN. -/
  rxDelta      : List (Key × Int)
  /-- AFFINE_X_SEL (R31): the number of the byte that is the affine input x; the spec's default is A3. -/
  affineXSel   : Selector := 3
  /-- RX_BANK_KEY_SEL (R31); the spec's default is (B1,B2). -/
  rxBankKeySel : BankKeySel := ⟨5, 6⟩
  /-- FOLLOW_SEL (R32), OPEN, no default. -/
  followSel    : FollowSel
  /-- RX_PATH (R33), OPEN. -/
  rxPath       : RxPath
  deriving DecidableEq, Repr

/-- FREE VALUE (93_implementation_defined.md I8, 41_affine_decoder.md R126): what the IDX wires of AFFDEC carry when
the bank is unknown, "any value". It is drawn only where a line of the dataflow syntax feeds such an output to
another operation; the n-th draw is `Config.undrivenIdx n`. Nothing constrains it (assumption 6). -/
opaque Config.undrivenIdx : Nat → RawIndex

/-- Stand-in text of TONE_LABELS entry i in CFG-T, where the spec writes the symbol T[i]: two digits, ".0", and "0" for
entry 0. DESIGN CHOICE (assumption 3): it names no tone, and no statement rests on it. -/
def Configuration.symbolicLabel (i : Fin 34) : String :=
  if i = 0 then "0" else String.ofList [Char.ofNat (48 + i.val / 10), Char.ofNat (48 + i.val % 10), '.', '0']

/-- The model MA of CFG-T (95_test_vectors.md section 2). -/
def AffineModel.exampleMA : AffineModel :=
  { m := #v[0x03, 0x06, 0x0C, 0x18, 0x30, 0x40], c := 0 }

/-- The model MB of CFG-T (95_test_vectors.md section 2). -/
def AffineModel.exampleMB : AffineModel :=
  { m := #v[0x01, 0x02, 0x04, 0x08, 0x10, 0x20], c := 34 }

/-- CFG-T (95_test_vectors.md section 2): "the spec's own configuration for the vectors", illustrative, no data of the
real hardware. RX_PATH is stated per vector, so it is an argument. -/
def Configuration.cfgT (path : RxPath) : Configuration where
  toneLabels := Vector.ofFn Configuration.symbolicLabel
  bankRegistry := [(0xAC37, .exampleMA), (0x1234, .exampleMB)]
  txDelta := [(0x47A4, 55), (0x5000, -20)]
  rxDelta := [(0x52E5, 30)]
  followSel := ⟨7, 7⟩
  rxPath := path

end Sys2Proof
end

