-- ==== Sys2Proof/Syntax.lean ====
section
/-! DEFINITION. The operations of the block, one constructor per row of spec/opcode_table.json (30_encoding.md R82),
and the dataflow syntax of 30_encoding.md R88 in which evaluations are written.

No operand is an immediate of an instruction word: "Every operand is a port value" (R83). So an operation has no
argument here; the input ports it reads are fields of the state, and a line of R88 says what is put on them. -/

namespace Sys2Proof

/-- The ten operations, in the order of their OPSEL codes (30_encoding.md R82). -/
inductive Instr where
  | txidx
  | rxidx
  | bankkey
  | affdec
  | tonelbl
  | follow
  | fbase
  | txfreq
  | rxfreq
  | decode
  deriving DecidableEq, Repr

/-- The ten operations as a list. -/
def Instr.all : List Instr :=
  [.txidx, .rxidx, .bankkey, .affdec, .tonelbl, .follow, .fbase, .txfreq, .rxfreq, .decode]

/-- The names of the output ports (30_encoding.md R82, the column of outputs). -/
inductive OutPort where
  | txi | rxi | key | idx | status | lbl | outLbl | f | deltaHit | txFreq | rxFreq | txLbl | rxLbl | rxStatus
  deriving DecidableEq, Repr

/-- The output ports as a list. -/
def OutPort.all : List OutPort :=
  [.txi, .rxi, .key, .idx, .status, .lbl, .outLbl, .f, .deltaHit, .txFreq, .rxFreq, .txLbl, .rxLbl, .rxStatus]

/-- An operand of a line (30_encoding.md R88). -/
inductive Operand where
  /-- A hexadecimal literal `0x..`. -/
  | literal (value : Nat)
  /-- A record as a byte sequence, byte A0 first: the literal `rec=0x…` when it is 8 bytes long, and any other
  sequence a byte-sequence model may be given (60_exceptions.md R232). -/
  | record (bytes : List Byte)
  /-- The name of an earlier `<dest>`, with the field `<dest>.<port>` where one is named. -/
  | result (dest : String) (port : Option OutPort)
  deriving DecidableEq, Repr

/-- A line `<dest> = <MNEMONIC> <operand>, …` (30_encoding.md R88): one evaluation. -/
structure Line where
  dest     : String
  op       : Instr
  operands : List Operand
  deriving DecidableEq, Repr

/-- What the host asks of the block, one after another (70_reset_and_hazards.md R261). -/
inductive Request where
  /-- The one configuration load, before the first evaluation (70_reset_and_hazards.md R260). -/
  | load (c : Configuration)
  /-- One evaluation: "the OPSEL code plus the operand values listed" (95_test_vectors.md section 4), its result
  named `dest`. -/
  | evaluate (opsel : BitVec 4) (dest : String) (operands : List Operand)
  deriving DecidableEq, Repr

end Sys2Proof
end

