-- ==== Sys2Proof/WellFormed.lean ====
section
/-! DEFINITION. The operand formats of 30_encoding.md R82 and R83, and what makes a line of the syntax of R88 well
formed: its name is a name, and its operands are as many and as wide as its operation's format says. -/

namespace Sys2Proof

/-- What one operand of a format is (30_encoding.md R83). -/
inductive OperandKind where
  /-- The 64-bit record. -/
  | record
  /-- A port of so many bits. -/
  | bits (width : Nat)
  deriving DecidableEq, Repr

/-- The operand format of each operation (30_encoding.md R82 and R83): F-REC, F-AFF, F-LBL, F-FOL, F-FB, F-TXF,
F-RXF. -/
def Instr.format : Instr → List OperandKind
  | .txidx   => [.record]
  | .rxidx   => [.record]
  | .bankkey => [.record]
  | .affdec  => [.bits 16, .bits 8]
  | .tonelbl => [.bits 6, .bits 1, .bits 1]
  | .follow  => [.bits 1, .bits 1, .bits 7, .bits 7]
  | .fbase   => [.bits 8, .bits 8]
  | .txfreq  => [.bits 8, .bits 8, .bits 8]
  | .rxfreq  => [.bits 8, .bits 8, .bits 8, .bits 32]
  | .decode  => [.record]

/-- A character of a name after its first one. DESIGN CHOICE (assumption 12): R88 gives no alphabet of names. -/
def isNameChar (ch : Char) : Bool := ch.isAlphanum || ch == '_'

/-- A name: a letter, then letters, digits and underscores. DESIGN CHOICE (assumption 12). -/
def isName (s : String) : Bool :=
  match s.toList with
  | [] => false
  | ch :: rest => ch.isAlpha && rest.all isNameChar

/-- An operand meets its place in the format: a literal fits the port, a record literal is 8 bytes long and stands
where a record is asked for, and a reference names a result. -/
def Operand.wellFormed : Operand → OperandKind → Bool
  | .literal v,     .bits w => decide (v < 2 ^ w)
  | .literal v,     .record => decide (v < 2 ^ 64)
  | .record bytes,  .record => bytes.length == 8
  | .record _,      .bits _ => false
  | .result dest _, _       => isName dest

/-- A line is well formed (30_encoding.md R83, R87, R88). -/
def Line.wellFormed (l : Line) : Bool :=
  isName l.dest && l.operands.length == l.op.format.length &&
    (l.operands.zip l.op.format).all fun p => p.1.wellFormed p.2

end Sys2Proof
end

