-- ==== Sys2Proof/Decode.lean ====
section
/-! DEFINITION. The operation encoding of spec/opcode_table.json and 30_encoding.md R82: the 4-bit OPSEL code. The
decoder is total and rejects 0xA..0xF by name (R86 (c)); the encoder is written from the same table. -/

namespace Sys2Proof

/-- A row of spec/opcode_table.json: its OPSEL code and its operation. The mask of every row is 0xF. -/
structure OpcodeRow where
  code : BitVec 4
  op   : Instr
  deriving DecidableEq, Repr

/-- spec/opcode_table.json, row by row. -/
def opcodeTable : List OpcodeRow :=
  [⟨0x0, .txidx⟩, ⟨0x1, .rxidx⟩, ⟨0x2, .bankkey⟩, ⟨0x3, .affdec⟩, ⟨0x4, .tonelbl⟩,
   ⟨0x5, .follow⟩, ⟨0x6, .fbase⟩, ⟨0x7, .txfreq⟩, ⟨0x8, .rxfreq⟩, ⟨0x9, .decode⟩]

/-- Why the decoder rejects. -/
inductive DecodeError where
  /-- There is no byte to read an OPSEL code from. -/
  | noByte
  /-- "OPSEL values 0xA..0xF spell no operation" (30_encoding.md R86 (c)). -/
  | noOperation (opsel : BitVec 4)
  deriving DecidableEq, Repr

/-- The operation an OPSEL code names. -/
def decode (opsel : BitVec 4) : Except DecodeError Instr :=
  match opcodeTable.find? fun row => row.code == opsel with
  | some row => .ok row.op
  | none     => .error (.noOperation opsel)

/-- The OPSEL code carried in a byte: its low four bits, the bits the mask 0xF of every row of the table covers.
DESIGN CHOICE (assumption 4). -/
def opselOfByte (b : Byte) : BitVec 4 := b.extractLsb' 0 4

/-- The decoder on bytes: one byte holds one OPSEL code, and the rest is handed back. -/
def decodeBytes : List Byte → Except DecodeError (Instr × List Byte)
  | [] => .error .noByte
  | b :: rest =>
    match decode (opselOfByte b) with
    | .ok i    => .ok (i, rest)
    | .error e => .error e

/-- The OPSEL code of an operation (30_encoding.md R82). -/
def encode : Instr → BitVec 4
  | .txidx   => 0x0
  | .rxidx   => 0x1
  | .bankkey => 0x2
  | .affdec  => 0x3
  | .tonelbl => 0x4
  | .follow  => 0x5
  | .fbase   => 0x6
  | .txfreq  => 0x7
  | .rxfreq  => 0x8
  | .decode  => 0x9

/-- The byte that carries an operation's OPSEL code. -/
def encodeBytes (i : Instr) : List Byte := [(encode i).setWidth 8]

/-- The OPSEL code of a word of the table's numbering, all bits above nbits zero. -/
def tableOpsel (nbits w : Nat) : BitVec 4 := opselOfByte (BitVec.ofNat 8 (w % 2 ^ nbits))

/-- The operation the decoder reads from a word of the table's numbering. -/
def decodeTableWord (nbits w : Nat) : Option Instr :=
  match decodeBytes [BitVec.ofNat 8 (w % 2 ^ nbits)] with
  | .ok (i, _) => some i
  | .error _   => none

/-- The request a line stands for: "the OPSEL code plus the operand values listed" (95_test_vectors.md section 4). -/
def Line.request (l : Line) : Request := .evaluate (encode l.op) l.dest l.operands

end Sys2Proof
end

