-- ==== Sys2Proof/Machine/State.lean ====
section
/-! DEFINITION. The state as plain data: the configuration (10_state.md R25 to R33), the input ports (R23, 30_encoding.md
R82), the output ports (R22, R24), and, as the model's own fields, the host's agenda and its read-back
(70_reset_and_hazards.md R261). The block has no registers, program counter, flags or memory (10_state.md R20 to R22,
20_memory.md R57), so there is none here. -/

namespace Sys2Proof.Machine

/-- A status (30_encoding.md R81). Its 2-bit code is `Status.code` (Flags.lean). -/
inductive Status where
  /-- A value was produced. -/
  | ok
  /-- BankKey not in BANK_REGISTRY. -/
  | unknownBank
  /-- The index has no label or is outside the bank's range. -/
  | unmappedIndex
  /-- The record is not 8 bytes; the name of the fault in a model's result type, never on a port (60_exceptions.md
  R232). -/
  | malformedInput
  deriving DecidableEq, Repr

/-- The five output ports of DECODE (10_state.md R24). -/
structure ChannelResult where
  txFreq   : FreqWord
  rxFreq   : FreqWord
  txLbl    : LabelCode
  rxLbl    : LabelCode
  rxStatus : Status
  deriving DecidableEq, Repr

/-- The output ports an evaluation drove (30_encoding.md R82, the column of outputs). -/
inductive Outputs where
  | txidx   (txi : RawIndex)
  | rxidx   (rxi : RawIndex)
  | bankkey (key : Key)
  /-- IDX is none where the bank is unknown: "A model represents IDX as `None`" (41_affine_decoder.md R126). -/
  | affdec  (idx : Option RawIndex) (status : Status)
  | tonelbl (lbl : LabelCode)
  | follow  (outLbl : LabelCode)
  | fbase   (f : FreqWord)
  | txfreq  (f : FreqWord) (deltaHit : Bool)
  | rxfreq  (f : FreqWord) (deltaHit : Bool)
  | decode  (result : ChannelResult)
  deriving DecidableEq, Repr

/-- The one hard failure of an evaluation. -/
inductive Fault where
  /-- MalformedInput: the record is not 8 bytes long, and no output is produced (60_exceptions.md R232). Raised by
  the operations that take a record: TXIDX, RXIDX, BANKKEY, DECODE. Safe: the spec names this failure. -/
  | malformedInput
  deriving DecidableEq, Repr

/-- How an evaluation ended, as the host records it (93_implementation_defined.md, treatment `fault`: "the evaluation has
no result and the fault is recorded"). -/
inductive EvalResult where
  | driven (o : Outputs)
  | failed (f : Fault)
  deriving DecidableEq, Repr

/-- The input ports (10_state.md R23 and 30_encoding.md R82). -/
structure Inputs where
  /-- REC as a byte sequence, byte A0 first (10_state.md R23, 60_exceptions.md R232). -/
  record   : List Byte
  key      : Key
  x        : Byte
  idx      : RawIndex
  idxValid : Bool
  supOk    : Bool
  rxZero   : Bool
  flag     : Bool
  txLbl    : LabelCode
  rxLbl    : LabelCode
  p        : Byte
  q        : Byte
  a0       : Byte
  a1       : Byte
  a2       : Byte
  b0       : Byte
  b1       : Byte
  b2       : Byte
  txf      : FreqWord
  deriving DecidableEq, Repr

/-- Every input port at zero, the record eight zero bytes. DESIGN CHOICE (assumption 2): the spec gives the ports no
value before the host drives them. -/
def Inputs.zero : Inputs where
  record := List.replicate 8 0
  key := 0
  x := 0
  idx := 0
  idxValid := false
  supOk := false
  rxZero := false
  flag := false
  txLbl := 0
  rxLbl := 0
  p := 0
  q := 0
  a0 := 0
  a1 := 0
  a2 := 0
  b0 := 0
  b1 := 0
  b2 := 0
  txf := 0

/-- The state of the block and, below it, of the host that drives it. -/
structure State where
  /-- The configuration, none before initialisation: "Before initialisation, no configuration item has a value"
  (10_state.md R39). -/
  config  : Option Configuration
  /-- The input ports, as the host drives them; no operation changes one (10_state.md R23). -/
  inputs  : Inputs
  /-- The output ports of the last evaluation, none before the first one, "a model has no value for them before it"
  (10_state.md R39, 93_implementation_defined.md I9), and none after one that failed, which "yields the hard failure
  MalformedInput and no outputs" (60_exceptions.md R232). -/
  outputs : Option Outputs
  /-- The model's own: how each evaluation ended, by name, the latest first: the outputs the host has read back, or
  the failure (30_encoding.md R88, 70_reset_and_hazards.md R261 (4)). -/
  results : List (String × EvalResult)
  /-- The model's own: what the host still asks, in order (70_reset_and_hazards.md R261). -/
  pending : List Request
  /-- The model's own: how many free values have been drawn (assumption 6). -/
  draws   : Nat
  deriving DecidableEq, Repr

/-- The block before initialisation: no configuration, no output, nothing asked (10_state.md R39,
70_reset_and_hazards.md R262). -/
def State.reset : State where
  config := none
  inputs := .zero
  outputs := none
  results := []
  pending := []
  draws := 0

/-- What the model gives no meaning. -/
inductive Refusal where
  /-- An operation without a meaning in this model. Raised by none: every arm of exec has its meaning. Safe. -/
  | notModelled (mnemonic : String)
  /-- An evaluation before the configuration is loaded: "An evaluation requested then is refused"
  (70_reset_and_hazards.md R262). Raised by every operation. Safe. -/
  | notInitialised
  /-- A configuration that breaks a constraint "is refused as a whole" (70_reset_and_hazards.md R260). Raised by the
  load. Safe. -/
  | illegalConfiguration
  /-- A second load "is outside the model" (70_reset_and_hazards.md R263). Raised by the load. Safe. -/
  | alreadyInitialised
  /-- An OPSEL code that names no operation (30_encoding.md R86 (c)). Raised by the fetch. Safe. -/
  | noSuchOperation (opsel : BitVec 4)
  /-- The operands of a line are not those of its operation's one fixed format (30_encoding.md R83, R87): too many,
  too few, a record for a port of bits, or a value too wide for its port. Raised when operands are put on the
  ports. Safe (assumption 5). -/
  | operandMismatch (op : Instr)
  /-- A line names a result that no earlier line has, or one that failed, or a port that result does not have, or by
  its bare name a result of several ports (30_encoding.md R88). Raised when operands are put on the ports. Safe
  (assumption 5). -/
  | noSuchResult (dest : String)
  deriving DecidableEq, Repr

end Sys2Proof.Machine
end

