-- ==== Sys2Proof/Machine/Ops.lean ====
section
/-! DEFINITION. The named operations all meanings share: the bytes and bits of the record (30_encoding.md R70, R71), the
assembly of an index (R74), nibbles (R76), keys (R77), table reads (20_memory.md R55, R56), and the two ways an
evaluation ends: its outputs are driven, or it has no result (60_exceptions.md R231, R232).

The block takes no trap and has none to return from (60_exceptions.md R235, R236), so there is no such operation. -/

namespace Sys2Proof

/-- The record as its bytes, A0 first. -/
def Record.bytes (r : Record) : List Byte := [r.a0, r.a1, r.a2, r.a3, r.b0, r.b1, r.b2, r.b3]

/-- A byte sequence as a record: exactly 8 bytes, none for any other length (60_exceptions.md R232). -/
def Record.ofBytes : List Byte → Option Record
  | [a0, a1, a2, a3, b0, b1, b2, b3] => some ⟨a0, a1, a2, a3, b0, b1, b2, b3⟩
  | _ => none

/-- The record on the port REC[63:0]: byte k at REC[63-8k : 56-8k] (30_encoding.md R70). -/
def Record.word (r : Record) : BitVec 64 :=
  r.a0 ++ r.a1 ++ r.a2 ++ r.a3 ++ r.b0 ++ r.b1 ++ r.b2 ++ r.b3

/-- `rec.byte(n)` (30_encoding.md R71). -/
def Record.byte (r : Record) (n : Selector) : Byte :=
  match n.toNat with
  | 0 => r.a0
  | 1 => r.a1
  | 2 => r.a2
  | 3 => r.a3
  | 4 => r.b0
  | 5 => r.b1
  | 6 => r.b2
  | _ => r.b3

/-- The bytes of a 64-bit port value, the most significant byte first (20_memory.md R50). -/
def bytesOfWord (w : BitVec 64) : List Byte :=
  [w.extractLsb' 56 8, w.extractLsb' 48 8, w.extractLsb' 40 8, w.extractLsb' 32 8,
   w.extractLsb' 24 8, w.extractLsb' 16 8, w.extractLsb' 8 8, w.extractLsb' 0 8]

namespace Machine

/-- `hn(b) = b[7:4]`, an unsigned number 0..15 (30_encoding.md R76). -/
def hn (b : Byte) : Nat := (b.extractLsb' 4 4).toNat

/-- `ln(b) = b[3:0]`, an unsigned number 0..15 (30_encoding.md R76). -/
def ln (b : Byte) : Nat := (b.extractLsb' 0 4).toNat

/-- A 6-bit index assembled "from bits 5..0", bit i of weight 2^i (30_encoding.md R74). -/
def index6 (b5 b4 b3 b2 b1 b0 : Bool) : RawIndex :=
  BitVec.ofNat 6 (32 * b5.toNat + 16 * b4.toNat + 8 * b3.toNat + 4 * b2.toNat + 2 * b1.toNat + b0.toNat)

/-- The ordered pair (first, second) packed as {first, second} (30_encoding.md R77). -/
def packKey (first second : Byte) : Key := first ++ second

/-- `Lookup(T, key)`: the entry for exactly that key, none where there is none (20_memory.md R55). -/
def lookup {α : Type} : List (Key × α) → Key → Option α
  | [], _ => none
  | (k, v) :: rest, key => if k = key then some v else lookup rest key

/-- `ToneROM(i)`, defined for i in 0..33 only (20_memory.md R56). -/
def toneROM (c : Configuration) (i : Fin 34) : String := c.toneLabels[i]

/-- A frequency on its 32-bit two's-complement port (30_encoding.md R79). -/
def freqPort (f : Int) : FreqWord := BitVec.ofInt 32 f

/-- The outcomes of an evaluation and of a step. -/
abbrev StepOutcome := Host.Outcome State Fault Refusal

/-- An evaluation ends when its outputs are driven; it writes nothing else (45_channel_decode.md R218,
60_exceptions.md R234). -/
def drive (s : State) (o : Outputs) : StepOutcome := .next { s with outputs := some o }

/-- An evaluation under the loaded configuration; before the load it is refused (70_reset_and_hazards.md R262). -/
def withConfig (s : State) (run : Configuration → StepOutcome) : StepOutcome :=
  match s.config with
  | none   => .refused .notInitialised
  | some c => run c

/-- An evaluation of format F-REC: the length of the record is checked before any operation reads it, and a wrong
length is the hard failure MalformedInput (60_exceptions.md R232, R233). -/
def withRecord (s : State) (run : Configuration → Record → Outputs) : StepOutcome :=
  withConfig s fun c =>
    match Record.ofBytes s.inputs.record with
    | none   => .fault .malformedInput
    | some r => drive s (run c r)

/-- The host reads the outputs back under the name of the line (70_reset_and_hazards.md R261 (4)). -/
def State.readBack (s : State) (dest : String) : State :=
  match s.outputs with
  | none   => s
  | some o => { s with results := (dest, .driven o) :: s.results }

/-- An evaluation failed: it has no outputs, and its failure is recorded under the name of the line (60_exceptions.md
R232, R234; 93_implementation_defined.md, treatment `fault`). -/
def State.recordFailure (s : State) (dest : String) (f : Fault) : State :=
  { s with outputs := none, results := (dest, .failed f) :: s.results }

/-- How an evaluation that began in s ends for the host: read back, or recorded as failed. A failure is that of the one
evaluation; the others, which cannot observe it, go on (60_exceptions.md R250, 00_scope.md R15; assumption 7). -/
def endEvaluation (s : State) (dest : String) : StepOutcome → StepOutcome
  | .next t    => .next (t.readBack dest)
  | .fault f   => .next (s.recordFailure dest f)
  | .refused r => .refused r

end Machine

end Sys2Proof
end

