-- ==== Sys2Proof/Machine/Flags.lean ====
section
/-! DEFINITION. The status and qualifier bits an evaluation drives or hands on (10_state.md R22): the block has no flag
that persists. -/

namespace Sys2Proof.Machine

/-- The 2-bit code of a status (30_encoding.md R81). -/
def Status.code : Status → BitVec 2
  | .ok             => 0
  | .unknownBank    => 1
  | .unmappedIndex  => 2
  | .malformedInput => 3

/-- The status a fault names in a model's result type (60_exceptions.md R232). -/
def Fault.status : Fault → Status
  | .malformedInput => .malformedInput

/-- STATUS of a decoded index: OK inside the bank's supported range, else UNMAPPED_INDEX (41_affine_decoder.md R124,
R127). -/
def bankStatus (sup : BitVec 64) (idx : RawIndex) : Status :=
  if sup.getLsbD idx.toNat then .ok else .unmappedIndex

/-- RX_STATUS on the extractor path: OK for 0..33 (45_channel_decode.md R212). -/
def extractorStatus (rxi : RawIndex) : Status :=
  if rxi.toNat ≤ 33 then .ok else .unmappedIndex

/-- IDXVALID on the affine path (45_channel_decode.md R210). -/
def idxValidOf (st : Status) : Bool := st != .unknownBank

/-- SUPOK on the affine path (45_channel_decode.md R210). -/
def supOkOf (st : Status) : Bool := st == .ok

/-- RXZERO: the RX tone path produced an index, and that index is 0 (43_follow_resolver.md R161). -/
def rxZeroOf (st : Status) (idx : Option RawIndex) : Bool := st == .ok && idx == some 0

end Sys2Proof.Machine
end

