-- ==== Sys2Proof/Machine/Operands.lean ====
section
/-! DEFINITION. How the operands of a line of 30_encoding.md R88 reach the input ports: a literal or a record stands for
itself, the name of an earlier result for the value on its port, and the values go to the ports of the operation's one
fixed format (R83, R87). -/

namespace Sys2Proof.Machine

/-- What an output port of an evaluation carries. -/
inductive PortValue where
  /-- A value, as an unsigned number. -/
  | bits (value : Nat)
  /-- No value: the IDX wires of AFFDEC where the bank is unknown (41_affine_decoder.md R126). -/
  | undriven
  deriving DecidableEq, Repr

/-- A bit as a port value. -/
def bitValue (b : Bool) : PortValue := .bits b.toNat

/-- An index that may be absent as a port value. -/
def idxValue : Option RawIndex → PortValue
  | some i => .bits i.toNat
  | none   => .undriven

/-- The value on a named port of an output tuple, none where the tuple has no such port (30_encoding.md R82, R88). -/
def Outputs.read : Outputs → OutPort → Option PortValue
  | .txidx v,     .txi      => some (.bits v.toNat)
  | .rxidx v,     .rxi      => some (.bits v.toNat)
  | .bankkey k,   .key      => some (.bits k.toNat)
  | .affdec i _,  .idx      => some (idxValue i)
  | .affdec _ st, .status   => some (.bits st.code.toNat)
  | .tonelbl l,   .lbl      => some (.bits l.toNat)
  | .follow l,    .outLbl   => some (.bits l.toNat)
  | .fbase f,     .f        => some (.bits f.toNat)
  | .txfreq f _,  .f        => some (.bits f.toNat)
  | .txfreq _ h,  .deltaHit => some (bitValue h)
  | .rxfreq f _,  .f        => some (.bits f.toNat)
  | .rxfreq _ h,  .deltaHit => some (bitValue h)
  | .decode r,    .txFreq   => some (.bits r.txFreq.toNat)
  | .decode r,    .rxFreq   => some (.bits r.rxFreq.toNat)
  | .decode r,    .txLbl    => some (.bits r.txLbl.toNat)
  | .decode r,    .rxLbl    => some (.bits r.rxLbl.toNat)
  | .decode r,    .rxStatus => some (.bits r.rxStatus.code.toNat)
  | _,            _         => none

/-- The port of an output tuple that has only one, so that the name of the line alone says which value is meant, as in
`FOLLOW 0x1, 0x1, tl, rl` (95_test_vectors.md P1). -/
def Outputs.solePort : Outputs → Option OutPort
  | .txidx _    => some .txi
  | .rxidx _    => some .rxi
  | .bankkey _  => some .key
  | .affdec _ _ => none
  | .tonelbl _  => some .lbl
  | .follow _   => some .outLbl
  | .fbase _    => some .f
  | .txfreq _ _ => none
  | .rxfreq _ _ => none
  | .decode _   => none

/-- The outputs of an evaluation that ended so; a failed one has none (60_exceptions.md R232). -/
def EvalResult.outputs : EvalResult → Option Outputs
  | .driven o => some o
  | .failed _ => none

/-- The outputs an earlier line left under a name, the latest where a name was used twice (assumption 5); none where that
line failed. -/
def findResult : List (String × EvalResult) → String → Option Outputs
  | [], _ => none
  | (name, e) :: rest, dest => if name = dest then e.outputs else findResult rest dest

/-- The value a reference to an earlier result stands for. -/
def Outputs.value (o : Outputs) (port : Option OutPort) : Option PortValue :=
  match port with
  | some p => o.read p
  | none   => match o.solePort with
    | some p => o.read p
    | none   => none

/-- An operand's value: a number for a port, or a record. -/
inductive OperandValue where
  | bits (value : Nat)
  | record (bytes : List Byte)
  deriving DecidableEq, Repr

/-- The value of one operand, and how many free values have then been drawn. A port that carries no value gives a free
value, "any value" (93_implementation_defined.md I8; assumption 6). -/
def resolve (results : List (String × EvalResult)) (draws : Nat) : Operand → Except Refusal (OperandValue × Nat)
  | .literal v => .ok (.bits v, draws)
  | .record bytes => .ok (.record bytes, draws)
  | .result dest port =>
    match findResult results dest with
    | none => .error (.noSuchResult dest)
    | some o =>
      match o.value port with
      | none => .error (.noSuchResult dest)
      | some (.bits v) => .ok (.bits v, draws)
      | some .undriven => .ok (.bits (Config.undrivenIdx draws).toNat, draws + 1)

/-- The values of a line's operands, from left to right. -/
def resolveAll (results : List (String × EvalResult)) : Nat → List Operand → Except Refusal (List OperandValue × Nat)
  | draws, [] => .ok ([], draws)
  | draws, operand :: rest =>
    match resolve results draws operand with
    | .error r => .error r
    | .ok (v, draws') =>
      match resolveAll results draws' rest with
      | .error r => .error r
      | .ok (vs, draws'') => .ok (v :: vs, draws'')

/-- A value on a port of w bits, none where it does not fit (assumption 5). -/
def OperandValue.asBits (w : Nat) : OperandValue → Option (BitVec w)
  | .bits v   => if v < 2 ^ w then some (BitVec.ofNat w v) else none
  | .record _ => none

/-- A value on a port of one bit. -/
def OperandValue.asBit (v : OperandValue) : Option Bool := (v.asBits 1).map fun b => b == 1

/-- A value on the record port: a byte sequence as it stands, or a 64-bit port value as its bytes (30_encoding.md R70). -/
def OperandValue.asRecord : OperandValue → Option (List Byte)
  | .record bytes => some bytes
  | .bits v       => if v < 2 ^ 64 then some (bytesOfWord (BitVec.ofNat 64 v)) else none

/-- Format F-REC: one record. -/
def driveRec (values : List OperandValue) (ports : Inputs) : Option Inputs :=
  match values with
  | [r] => do return { ports with record := ← r.asRecord }
  | _   => none

/-- Format F-AFF: KEY, X. -/
def driveAff (values : List OperandValue) (ports : Inputs) : Option Inputs :=
  match values with
  | [key, x] => do return { ports with key := ← key.asBits 16, x := ← x.asBits 8 }
  | _        => none

/-- Format F-LBL: IDX, IDXVALID, SUPOK. -/
def driveLbl (values : List OperandValue) (ports : Inputs) : Option Inputs :=
  match values with
  | [idx, valid, sup] => do
    return { ports with idx := ← idx.asBits 6, idxValid := ← valid.asBit, supOk := ← sup.asBit }
  | _ => none

/-- Format F-FOL: RXZERO, FLAG, TXLBL, RXLBL. -/
def driveFol (values : List OperandValue) (ports : Inputs) : Option Inputs :=
  match values with
  | [zero, flag, txLbl, rxLbl] => do
    return { ports with rxZero := ← zero.asBit, flag := ← flag.asBit, txLbl := ← txLbl.asBits 7,
                        rxLbl := ← rxLbl.asBits 7 }
  | _ => none

/-- Format F-FB: P, Q. -/
def driveFb (values : List OperandValue) (ports : Inputs) : Option Inputs :=
  match values with
  | [p, q] => do return { ports with p := ← p.asBits 8, q := ← q.asBits 8 }
  | _      => none

/-- Format F-TXF: A0, A1, A2. -/
def driveTxf (values : List OperandValue) (ports : Inputs) : Option Inputs :=
  match values with
  | [x, y, z] => do return { ports with a0 := ← x.asBits 8, a1 := ← y.asBits 8, a2 := ← z.asBits 8 }
  | _         => none

/-- Format F-RXF: B0, B1, B2, TXF. -/
def driveRxf (values : List OperandValue) (ports : Inputs) : Option Inputs :=
  match values with
  | [x, y, z, txf] => do
    return { ports with b0 := ← x.asBits 8, b1 := ← y.asBits 8, b2 := ← z.asBits 8, txf := ← txf.asBits 32 }
  | _ => none

/-- The operand values on the input ports of the operation, in the order of its format (30_encoding.md R82, R83); none
where they are not of that format. Ports of other operations keep what they carry. -/
def drivePorts (i : Instr) (values : List OperandValue) (ports : Inputs) : Option Inputs :=
  match i with
  | .txidx   => driveRec values ports
  | .rxidx   => driveRec values ports
  | .bankkey => driveRec values ports
  | .affdec  => driveAff values ports
  | .tonelbl => driveLbl values ports
  | .follow  => driveFol values ports
  | .fbase   => driveFb values ports
  | .txfreq  => driveTxf values ports
  | .rxfreq  => driveRxf values ports
  | .decode  => driveRec values ports

/-- The host puts a line's operands on the input ports (70_reset_and_hazards.md R261 (3)). -/
def present (i : Instr) (operands : List Operand) (s : State) : Except Refusal State :=
  match resolveAll s.results s.draws operands with
  | .error r => .error r
  | .ok (values, draws) =>
    match drivePorts i values s.inputs with
    | none       => .error (.operandMismatch i)
    | some ports => .ok { s with inputs := ports, draws := draws }

end Sys2Proof.Machine
end

