-- ==== Sys2Proof/Machine/Extractor.lean ====
section
/-! DEFINITION. The Bit Index Extractor: TXIDX and RXIDX (40_bit_index_extractor.md). -/

namespace Sys2Proof.Machine

/-- The TX wiring (40_bit_index_extractor.md R100). -/
def txIndex (r : Record) : RawIndex :=
  index6 (r.b0.getLsbD 4) (r.b2.getLsbD 2) (r.b3.getLsbD 3) (r.b3.getLsbD 2) (r.b3.getLsbD 1) (r.b3.getLsbD 0)

/-- The RX wiring (40_bit_index_extractor.md R101). -/
def rxIndex (r : Record) : RawIndex :=
  index6 (r.a3.getLsbD 6) (r.a3.getLsbD 7) (r.a3.getLsbD 0) (r.a3.getLsbD 1) (r.a3.getLsbD 2) (r.a3.getLsbD 3)

/-- TXIDX (40_bit_index_extractor.md R100). -/
def execTxidx (s : State) : StepOutcome := withRecord s fun _ r => .txidx (txIndex r)

/-- RXIDX (40_bit_index_extractor.md R101). -/
def execRxidx (s : State) : StepOutcome := withRecord s fun _ r => .rxidx (rxIndex r)

end Sys2Proof.Machine
end

