-- ==== Sys2Proof/Machine/Affine.lean ====
section
/-! DEFINITION. The bank key and the Affine GF(2) Decoder: BANKKEY and AFFDEC (41_affine_decoder.md). -/

namespace Sys2Proof.Machine

/-- The RX BankKey of a record (41_affine_decoder.md R120). -/
def bankKey (sel : BankKeySel) (r : Record) : Key := packKey (r.byte sel.first) (r.byte sel.second)

/-- One parity tree: XOR over k in 0..7 of row[k] AND x[k] (41_affine_decoder.md R122). -/
def gf2Dot (row x : BitVec 8) : Bool :=
  [0, 1, 2, 3, 4, 5, 6, 7].foldl (fun acc k => acc ^^ (row.getLsbD k && x.getLsbD k)) false

/-- The affine map of a model (41_affine_decoder.md R122). -/
def affine (m : AffineModel) (x : Byte) : RawIndex :=
  index6 (m.c.getLsbD 5 ^^ gf2Dot m.m[5] x) (m.c.getLsbD 4 ^^ gf2Dot m.m[4] x) (m.c.getLsbD 3 ^^ gf2Dot m.m[3] x)
    (m.c.getLsbD 2 ^^ gf2Dot m.m[2] x) (m.c.getLsbD 1 ^^ gf2Dot m.m[1] x) (m.c.getLsbD 0 ^^ gf2Dot m.m[0] x)

/-- The GF(2) product M·x without the constant: the linear part of the affine map (41_affine_decoder.md R128, R129). -/
def linearPart (m : AffineModel) (x : Byte) : RawIndex := affine m x ^^^ m.c

/-- The decoder: the registry check, then the zero special case, then the product and the range check
(41_affine_decoder.md R124, R125). -/
def affineDecode (registry : List (Key × AffineModel)) (key : Key) (x : Byte) : Option RawIndex × Status :=
  match lookup registry key with
  | none   => (none, .unknownBank)
  | some m => if x = 0 then (some 0, .ok) else (some (affine m x), bankStatus m.sup (affine m x))

/-- BANKKEY (41_affine_decoder.md R120). -/
def execBankkey (s : State) : StepOutcome := withRecord s fun c r => .bankkey (bankKey c.rxBankKeySel r)

/-- AFFDEC (41_affine_decoder.md R124). -/
def execAffdec (s : State) : StepOutcome :=
  withConfig s fun c =>
    let result := affineDecode c.bankRegistry s.inputs.key s.inputs.x
    drive s (.affdec result.1 result.2)

end Sys2Proof.Machine
end

