-- ==== Sys2Proof/Machine/ToneTable.lean ====
section
/-! DEFINITION. The Tone Table lookup: TONELBL, the codes it drives, and the text a code stands for
(42_tone_table.md). -/

namespace Sys2Proof.Machine

/-- `LBL(i)`, the code {0, i[5:0]} (30_encoding.md R80). -/
def lblCode (i : RawIndex) : LabelCode := i.setWidth 7

/-- `UNKNOWN`, the code of the explicit "unknown" sentinel (30_encoding.md R80). -/
def unknownLabel : LabelCode := 0x40

/-- The range check and the table (42_tone_table.md R140). -/
def toneLabel (idx : RawIndex) (idxValid supOk : Bool) : LabelCode :=
  if idxValid = false then unknownLabel
  else if supOk = false then unknownLabel
  else if idx.toNat ≤ 33 then lblCode idx
  else unknownLabel

/-- The text a label code stands for: TONE_LABELS[i] for LBL(i), the host's sentinel for UNKNOWN, none for a code that
is never driven (42_tone_table.md R144, 30_encoding.md R80). The sentinel's text is the host's, so it is an argument. -/
def labelText (c : Configuration) (sentinel : String) (code : LabelCode) : Option String :=
  if code = unknownLabel then some sentinel
  else if h : code.toNat < 34 then some (toneROM c ⟨code.toNat, h⟩)
  else none

/-- TONELBL (42_tone_table.md R140). -/
def execTonelbl (s : State) : StepOutcome :=
  withConfig s fun _ => drive s (.tonelbl (toneLabel s.inputs.idx s.inputs.idxValid s.inputs.supOk))

end Sys2Proof.Machine
end

