-- ==== Sys2Proof/Machine/Follow.lean ====
section
/-! DEFINITION. The Follow Resolver: FOLLOW (43_follow_resolver.md). -/

namespace Sys2Proof.Machine

/-- The multiplexer, selected by RXZERO AND FLAG (43_follow_resolver.md R160). -/
def followLabel (rxZero flag : Bool) (txLbl rxLbl : LabelCode) : LabelCode :=
  if rxZero && flag then txLbl else rxLbl

/-- The follow flag of a record (43_follow_resolver.md R166). -/
def followFlag (sel : FollowSel) (r : Record) : Bool := (r.byte sel.byte).getLsbD sel.bit.toNat

/-- FOLLOW (43_follow_resolver.md R160). -/
def execFollow (s : State) : StepOutcome :=
  withConfig s fun _ =>
    drive s (.follow (followLabel s.inputs.rxZero s.inputs.flag s.inputs.txLbl s.inputs.rxLbl))

end Sys2Proof.Machine
end

