-- ==== Sys2Proof/Machine/Frequency.lean ====
section
/-! DEFINITION. The Frequency Decoder: FBASE, TXFREQ and RXFREQ, in exact integers of 0.001 MHz (44_frequency_decoder.md
R180, R181). -/

namespace Sys2Proof.Machine

/-- The base frequency of a pair of bytes (44_frequency_decoder.md R182). -/
def baseFreq (p q : Byte) : Int :=
  1000 * (((hn p : Int) - 1) * 10 + (ln p : Int)) + 100 * (hn q : Int) + 10 * (ln q : Int)

/-- The TX fallback delta (44_frequency_decoder.md R183, R184). -/
def txFallback (a2 : Byte) : Int := 10 * (ln a2 : Int) + (if hn a2 = 0xA then 15 else 0)

/-- The TX frequency and DELTA_HIT (44_frequency_decoder.md R183). -/
def txFrequency (deltas : List (Key × Int)) (a0 a1 a2 : Byte) : FreqWord × Bool :=
  match lookup deltas (packKey a1 a2) with
  | some v => (freqPort (baseFreq a0 a1 + v), true)
  | none   => (freqPort (baseFreq a0 a1 + txFallback a2), false)

/-- The RX frequency and DELTA_HIT: the table, else the split channel, else TXF bit for bit (44_frequency_decoder.md
R185, R186). -/
def rxFrequency (deltas : List (Key × Int)) (b0 b1 b2 : Byte) (txf : FreqWord) : FreqWord × Bool :=
  match lookup deltas (packKey b1 b2) with
  | some v => (freqPort (baseFreq b0 b1 + v), true)
  | none   => if hn b2 = 0xE then (freqPort (baseFreq b0 b1 + 1000), false) else (txf, false)

/-- FBASE (44_frequency_decoder.md R182). -/
def execFbase (s : State) : StepOutcome :=
  withConfig s fun _ => drive s (.fbase (freqPort (baseFreq s.inputs.p s.inputs.q)))

/-- TXFREQ (44_frequency_decoder.md R183). -/
def execTxfreq (s : State) : StepOutcome :=
  withConfig s fun c =>
    let result := txFrequency c.txDelta s.inputs.a0 s.inputs.a1 s.inputs.a2
    drive s (.txfreq result.1 result.2)

/-- RXFREQ (44_frequency_decoder.md R185). -/
def execRxfreq (s : State) : StepOutcome :=
  withConfig s fun c =>
    let result := rxFrequency c.rxDelta s.inputs.b0 s.inputs.b1 s.inputs.b2 s.inputs.txf
    drive s (.rxfreq result.1 result.2)

end Sys2Proof.Machine
end

