-- ==== Sys2Proof/Machine/Channel.lean ====
section
/-! DEFINITION. The channel-level composition: DECODE (45_channel_decode.md). -/

namespace Sys2Proof.Machine

/-- What the RX tone path hands on: its status, its label before the follow, and RXZERO. -/
structure RxTone where
  status : Status
  label  : LabelCode
  zero   : Bool
  deriving DecidableEq, Repr

/-- The RX tone path under RX_PATH = EXTRACTOR (45_channel_decode.md R212). -/
def extractorTone (r : Record) : RxTone where
  status := extractorStatus (rxIndex r)
  label := toneLabel (rxIndex r) true true
  zero := rxIndex r == 0

/-- What follows AFFDEC on the affine path; with no index there is no label and no follow (42_tone_table.md R141,
43_follow_resolver.md R161). -/
def affineTone : Option RawIndex × Status → RxTone
  | (none, st)     => { status := st, label := unknownLabel, zero := rxZeroOf st none }
  | (some idx, st) =>
    { status := st, label := toneLabel idx (idxValidOf st) (supOkOf st), zero := rxZeroOf st (some idx) }

/-- The RX tone path RX_PATH selects, with no fallback between the two (45_channel_decode.md R210, R213). -/
def rxTone (c : Configuration) (r : Record) : RxTone :=
  match c.rxPath with
  | .extractor => extractorTone r
  | .affine    => affineTone (affineDecode c.bankRegistry (bankKey c.rxBankKeySel r) (r.byte c.affineXSel))

/-- TX_LBL (45_channel_decode.md R211). -/
def txToneLabel (r : Record) : LabelCode := toneLabel (txIndex r) true true

/-- TX_FREQ (45_channel_decode.md R215). -/
def channelTxFreq (c : Configuration) (r : Record) : FreqWord := (txFrequency c.txDelta r.a0 r.a1 r.a2).1

/-- One channel record decoded (45_channel_decode.md R210). -/
def decodeChannel (c : Configuration) (r : Record) : ChannelResult where
  txFreq := channelTxFreq c r
  rxFreq := (rxFrequency c.rxDelta r.b0 r.b1 r.b2 (channelTxFreq c r)).1
  txLbl := txToneLabel r
  rxLbl := followLabel (rxTone c r).zero (followFlag c.followSel r) (txToneLabel r) (rxTone c r).label
  rxStatus := (rxTone c r).status

/-- DECODE (45_channel_decode.md R210). -/
def execDecode (s : State) : StepOutcome := withRecord s fun c r => .decode (decodeChannel c r)

end Sys2Proof.Machine
end

