-- ==== Sys2Proof/Machine/Initialise.lean ====
section
/-! DEFINITION. Initialisation: the constraints a configuration must meet (93_implementation_defined.md I3, 10_state.md R35
(a), R39) and the one load (70_reset_and_hazards.md R260 to R263). -/

namespace Sys2Proof

/-- A label of TONE_LABELS 1..33: digits, ".", one digit (10_state.md R26). -/
def isToneText (label : String) : Bool :=
  match label.toList.reverse with
  | d :: '.' :: digits => d.isDigit && !digits.isEmpty && digits.all Char.isDigit
  | _ => false

/-- Entry 0 is "0" and every other entry is a tone text (10_state.md R26). -/
def Configuration.labelsLegal (c : Configuration) : Bool :=
  (List.finRange 34).all fun i => if i = 0 then c.toneLabels[i] == "0" else isToneText c.toneLabels[i]

/-- No key has two values, so that the entries are a partial map (10_state.md R27, R30). -/
def isPartialMap {α : Type} [DecidableEq α] (t : List (Key × α)) : Bool :=
  t.all fun e => t.all fun f => e.1 != f.1 || e.2 == f.2

/-- SUP[0] = 1, SUP[34..63] = 0, and C is 0 or in 34..63 (10_state.md R29, 41_affine_decoder.md R127, R129). -/
def AffineModel.legal (m : AffineModel) : Bool :=
  m.sup.getLsbD 0 && m.sup.extractLsb' 34 30 == 0 && (m.c == 0 || decide (34 ≤ m.c.toNat))

/-- A delta table: a partial map whose values d satisfy |d| ≤ 1,000,000 (10_state.md R30). -/
def deltasLegal (t : List (Key × Int)) : Bool := isPartialMap t && t.all fun e => decide (e.2.natAbs ≤ 1000000)

/-- For each index y in 1..31 the encode system M·x = y XOR C has a solution (41_affine_decoder.md R129 (b)). -/
def AffineModel.solvesTones (m : AffineModel) : Bool :=
  decide (∀ y : RawIndex, 1 ≤ y.toNat → y.toNat ≤ 31 → ∃ x : Byte, Machine.linearPart m x = y ^^^ m.c)

/-- BankKey (0xAC,0x37) is registered (10_state.md R35 (a), R39), and its model solves the encode system of every index
1..31 (41_affine_decoder.md R129 (b)). -/
def Configuration.knownBankConforms (c : Configuration) : Bool :=
  match Machine.lookup c.bankRegistry 0xAC37 with
  | some m => m.solvesTones
  | none   => false

/-- The configurations that may be loaded (70_reset_and_hazards.md R260, 93_implementation_defined.md I3). R260 counts all
of 41_affine_decoder.md R129 among the constraints, and 10_state.md R39 has the key in every loaded registry, where I3's
list names neither (assumption 9). -/
def Configuration.legal (c : Configuration) : Bool :=
  c.labelsLegal && isPartialMap c.bankRegistry && (c.bankRegistry.all fun e => e.2.legal) &&
    deltasLegal c.txDelta && deltasLegal c.rxDelta && c.knownBankConforms

namespace Machine

/-- The configuration load: once, and refused as a whole where the configuration breaks a constraint; a second load
has no meaning (70_reset_and_hazards.md R260, R263). -/
def loadConfiguration (c : Configuration) (s : State) : StepOutcome :=
  match s.config with
  | some _ => .refused .alreadyInitialised
  | none   => if c.legal then .next { s with config := some c } else .refused .illegalConfiguration

end Machine

end Sys2Proof
end

