-- ==== Sys2Proof/Machine/Dispatch.lean ====
section
/-! DEFINITION. exec: one arm per operation, each one call of its meaning. -/

namespace Sys2Proof.Machine

def exec (i : Instr) (s : State) : Host.Outcome State Fault Refusal :=
  match i with
  | .txidx => Sys2Proof.Machine.execTxidx s
  | .rxidx => Sys2Proof.Machine.execRxidx s
  | .bankkey => Sys2Proof.Machine.execBankkey s
  | .affdec => Sys2Proof.Machine.execAffdec s
  | .tonelbl => Sys2Proof.Machine.execTonelbl s
  | .follow => Sys2Proof.Machine.execFollow s
  | .fbase => Sys2Proof.Machine.execFbase s
  | .txfreq => Sys2Proof.Machine.execTxfreq s
  | .rxfreq => Sys2Proof.Machine.execRxfreq s
  | .decode => Sys2Proof.Machine.execDecode s

end Sys2Proof.Machine
end

