-- ==== Sys2Proof/Machine/Evaluate.lean ====
section
/-! DEFINITION. What the host's next request does: the load, or one evaluation from its OPSEL code to the outputs read
back; and the request that stands for a word of the opcode table. -/

namespace Sys2Proof.Machine

/-- One evaluation: the OPSEL code is decoded, the operands are put on the input ports, the operation drives its
outputs, and the host reads them back or records the failure (30_encoding.md R82, R88; 60_exceptions.md R232;
70_reset_and_hazards.md R261). -/
def evaluate (opsel : BitVec 4) (dest : String) (operands : List Operand) (s : State) : StepOutcome :=
  match decode opsel with
  | .error _ => .refused (.noSuchOperation opsel)
  | .ok i =>
    match present i operands s with
    | .error r => .refused r
    | .ok t    => endEvaluation t dest (exec i t)

/-- One request of the host. -/
def serve (q : Request) (s : State) : StepOutcome :=
  match q with
  | .load c => loadConfiguration c s
  | .evaluate opsel dest operands => evaluate opsel dest operands s

/-- Operands of zeros in the format of the operation an OPSEL code names, none where it names none. -/
def zeroOperands (opsel : BitVec 4) : List Operand :=
  match decode opsel with
  | .error _ => []
  | .ok i => i.format.map fun kind =>
    match kind with
    | .record => .record (List.replicate 8 0)
    | .bits _ => .literal 0

/-- The evaluation that a word of the opcode table stands for: its OPSEL code, every operand zero (assumption 3). -/
def tableRequest (nbits w : Nat) : Request :=
  .evaluate (tableOpsel nbits w) "t" (zeroOperands (tableOpsel nbits w))

/-- The configuration an evaluation placed by hand runs under: the loaded one, and CFG-T where none is loaded
(assumption 3). -/
def configOrExample (c : Option Configuration) : Configuration :=
  match c with
  | some c => c
  | none   => .cfgT .extractor

end Sys2Proof.Machine
end

