-- ==== Sys2Proof/Machine/Step.lean ====
section
/-! DEFINITION. The step: the host's next request is served; with none the block stays as it is (45_channel_decode.md
R218). The block fetches no instruction (10_state.md R21): what step reads next is the head of the host's agenda. -/

namespace Sys2Proof.Machine

/-- One step. With nothing asked the block has "no pending work" and stays as it is (45_channel_decode.md R218,
assumption 8). -/
def step (s : State) : Host.Outcome State Fault Refusal :=
  match s.pending with
  | []        => .next s
  | q :: rest => serve q { s with pending := rest }

/-- The evaluation a word of the opcode table stands for, placed as the host's next request, under CFG-T where no
configuration is loaded yet (assumption 3). -/
def State.withFetchWord (s : State) (nbits w : Nat) : State :=
  { s with config := some (configOrExample s.config), pending := tableRequest nbits w :: s.pending }

end Sys2Proof.Machine
end

