-- ==== Sys2Proof/Machine/Assembler.lean ====
section
/-! DEFINITION. The textual form of a line (30_encoding.md R88): writing one and reading one. Text is handled as a list of
characters. -/

namespace Sys2Proof

/-- The mnemonic of an operation, as spec/opcode_table.json spells it. -/
def Instr.mnemonic : Instr → String
  | .txidx   => "TXIDX"
  | .rxidx   => "RXIDX"
  | .bankkey => "BANKKEY"
  | .affdec  => "AFFDEC"
  | .tonelbl => "TONELBL"
  | .follow  => "FOLLOW"
  | .fbase   => "FBASE"
  | .txfreq  => "TXFREQ"
  | .rxfreq  => "RXFREQ"
  | .decode  => "DECODE"

/-- The name of an output port, as 30_encoding.md R82 spells it. -/
def OutPort.name : OutPort → String
  | .txi      => "TXI"
  | .rxi      => "RXI"
  | .key      => "KEY"
  | .idx      => "IDX"
  | .status   => "STATUS"
  | .lbl      => "LBL"
  | .outLbl   => "OUTLBL"
  | .f        => "F"
  | .deltaHit => "DELTA_HIT"
  | .txFreq   => "TX_FREQ"
  | .rxFreq   => "RX_FREQ"
  | .txLbl    => "TX_LBL"
  | .rxLbl    => "RX_LBL"
  | .rxStatus => "RX_STATUS"

/-- The operation a mnemonic names. -/
def Instr.ofMnemonic (cs : List Char) : Option Instr := Instr.all.find? fun i => i.mnemonic.toList == cs

/-- The output port a name names. -/
def OutPort.ofName (cs : List Char) : Option OutPort := OutPort.all.find? fun p => p.name.toList == cs

/-! ### Writing a line -/

/-- A hexadecimal digit, in capitals. -/
def hexDigit (n : Nat) : Char := if n < 10 then Char.ofNat (48 + n) else Char.ofNat (55 + n)

/-- So many hexadecimal digits of a number, the most significant first. -/
def hexText : Nat → Nat → List Char
  | 0, _          => []
  | digits + 1, v => hexText digits (v / 16) ++ [hexDigit (v % 16)]

/-- How many hexadecimal digits an operand of a kind is written with. -/
def OperandKind.digits : OperandKind → Nat
  | .record => 16
  | .bits w => (w + 3) / 4

/-- An operand as text. -/
def Operand.write (kind : OperandKind) : Operand → List Char
  | .literal v            => '0' :: 'x' :: hexText kind.digits v
  | .record bytes         => 'r' :: 'e' :: 'c' :: '=' :: '0' :: 'x' :: bytes.flatMap fun b => hexText 2 b.toNat
  | .result dest none     => dest.toList
  | .result dest (some p) => dest.toList ++ '.' :: p.name.toList

/-- Texts joined by a comma and a space. -/
def joinComma : List (List Char) → List Char
  | []           => []
  | [t]          => t
  | t :: u :: ts => t ++ ',' :: ' ' :: joinComma (u :: ts)

/-- A line as text: `<dest> = <MNEMONIC> <operand>, <operand>, ...`. -/
def Line.write (l : Line) : List Char :=
  l.dest.toList ++ [' ', '=', ' '] ++ l.op.mnemonic.toList ++ [' '] ++
    joinComma ((l.operands.zip l.op.format).map fun p => p.1.write p.2)

/-! ### Reading a line -/

/-- Why a text is no line. -/
inductive LineError where
  /-- There is no `=` after a destination. -/
  | noEquals
  /-- The destination is no name. -/
  | badDest
  /-- No operation has this mnemonic. -/
  | unknownMnemonic
  /-- An operand is no literal, no record literal and no name. -/
  | badOperand
  deriving DecidableEq, Repr

/-- The value of a hexadecimal digit, capital or small. -/
def hexValue (ch : Char) : Option Nat :=
  if '0' ≤ ch ∧ ch ≤ '9' then some (ch.toNat - 48)
  else if 'A' ≤ ch ∧ ch ≤ 'F' then some (ch.toNat - 55)
  else if 'a' ≤ ch ∧ ch ≤ 'f' then some (ch.toNat - 87)
  else none

/-- A run of hexadecimal digits after a value already read. -/
def readHexFrom : Nat → List Char → Option Nat
  | acc, []      => some acc
  | acc, ch :: t =>
    match hexValue ch with
    | some d => readHexFrom (16 * acc + d) t
    | none   => none

/-- A run of at least one hexadecimal digit. -/
def readHex : List Char → Option Nat
  | []      => none
  | ch :: t => readHexFrom 0 (ch :: t)

/-- Pairs of hexadecimal digits as bytes. -/
def readBytes : List Char → Option (List Byte)
  | []          => some []
  | [_]         => none
  | x :: y :: t =>
    match hexValue x, hexValue y, readBytes t with
    | some hi, some lo, some bs => some (BitVec.ofNat 8 (16 * hi + lo) :: bs)
    | _, _, _ => none

/-- The digits of a record literal without the `_` between groups; an underscore stands between two digits only. -/
def dropSplits : List Char → Option (List Char)
  | []             => some []
  | ['_']          => none
  | '_' :: '_' :: _ => none
  | '_' :: ch :: t  => dropSplits (ch :: t)
  | ch :: t         => (dropSplits t).map (ch :: ·)

/-- A record literal after its `rec=0x`: exactly 16 hexadecimal digits, byte A0 first. -/
def readRecord (cs : List Char) : Option (List Byte) :=
  if cs.head? = some '_' then none
  else match dropSplits cs with
    | some ds => if ds.length = 16 then readBytes ds else none
    | none    => none

/-- The text before the first such character. -/
def before (ch : Char) (cs : List Char) : List Char := cs.takeWhile (· != ch)

/-- The text after the first such character, none where there is none. -/
def after (ch : Char) (cs : List Char) : Option (List Char) := (cs.dropWhile (· != ch)).tail?

/-- The text without the spaces at its two ends. -/
def trim (cs : List Char) : List Char := ((cs.dropWhile (· == ' ')).reverse.dropWhile (· == ' ')).reverse

/-- The pieces between commas. -/
def splitComma : List Char → List (List Char)
  | []      => [[]]
  | ch :: t =>
    if ch = ',' then [] :: splitComma t
    else match splitComma t with
      | []      => [[ch]]
      | p :: ps => (ch :: p) :: ps

/-- A name of the syntax. -/
def readName (cs : List Char) : Option String := if isName (String.ofList cs) then some (String.ofList cs) else none

/-- A reference to an earlier result: `<dest>` or `<dest>.<port>`. -/
def readResult (cs : List Char) : Option Operand :=
  match readName (before '.' cs), after '.' cs with
  | none, _           => none
  | some dest, none   => some (.result dest none)
  | some dest, some p => (OutPort.ofName p).map fun port => .result dest (some port)

/-- An operand. -/
def readOperand : List Char → Option Operand
  | 'r' :: 'e' :: 'c' :: '=' :: '0' :: 'x' :: t => (readRecord t).map .record
  | '0' :: 'x' :: t => (readHex t).map .literal
  | cs => readResult cs

/-- The operands of a line. -/
def readOperands : List (List Char) → Option (List Operand)
  | []      => some []
  | t :: ts =>
    match readOperand (trim t), readOperands ts with
    | some o, some os => some (o :: os)
    | _, _ => none

/-- A line read from its text. -/
def readLine (cs : List Char) : Except LineError Line :=
  match after '=' cs with
  | none => .error .noEquals
  | some body =>
    match readName (trim (before '=' cs)), Instr.ofMnemonic (before ' ' (trim body)),
        readOperands (splitComma ((after ' ' (trim body)).getD [])) with
    | none, _, _ => .error .badDest
    | _, none, _ => .error .unknownMnemonic
    | _, _, none => .error .badOperand
    | some dest, some op, some operands => .ok ⟨dest, op, operands⟩

end Sys2Proof
end

