-- ==== Sys2Proof/Safety.lean ====
section
/-! DEFINITION. What claims are stated in: the invariants of a state, what an output can be, the premises the spec names
for claims, and a safe run. -/

namespace Sys2Proof

/-- No two entries of TONE_LABELS are the same string: the premise `labels_distinct` of 93_implementation_defined.md
I4. -/
def Configuration.labelsDistinct (c : Configuration) : Prop :=
  ∀ i j : Fin 34, c.toneLabels[i] = c.toneLabels[j] → i = j

namespace Machine

/-- A label code an operation may drive: LBL(0) to LBL(33), or UNKNOWN (30_encoding.md R80). -/
def labelDriven (l : LabelCode) : Prop := l.toNat ≤ 33 ∨ l = unknownLabel

/-- A frequency of TXFREQ or of DECODE lies in this range (44_frequency_decoder.md R187). -/
def inFreqRange (f : FreqWord) : Prop := -1010000 ≤ f.toInt ∧ f.toInt ≤ 1156650

/-- What can stand on the output ports under a legal configuration (30_encoding.md R80, R81; 41_affine_decoder.md R124
to R127; 44_frequency_decoder.md R182, R187; 45_channel_decode.md R210). OUTLBL of FOLLOW, and F of RXFREQ with
DELTA_HIT = 0, may be what an input port carries, so nothing is said of those two here. -/
def Outputs.sound : Outputs → Prop
  | .txidx _      => True
  | .rxidx _      => True
  | .bankkey _    => True
  | .affdec idx st =>
    (idx = none ↔ st = .unknownBank) ∧ st ≠ .malformedInput ∧ ∀ i, idx = some i → 34 ≤ i.toNat → st = .unmappedIndex
  | .tonelbl l    => labelDriven l
  | .follow _     => True
  | .fbase f      => -10000 ≤ f.toInt ∧ f.toInt ≤ 156650 ∧ f.toInt % 10 = 0
  | .txfreq f _   => inFreqRange f
  | .rxfreq f hit => hit = true → inFreqRange f
  | .decode r     =>
    inFreqRange r.txFreq ∧ inFreqRange r.rxFreq ∧ labelDriven r.txLbl ∧ labelDriven r.rxLbl ∧
      r.rxStatus ≠ .malformedInput ∧ (r.rxStatus ≠ .ok → r.rxLbl = unknownLabel)

/-- The loaded configuration, if any, is legal. -/
def State.configLegal (s : State) : Prop := ∀ c, s.config = some c → c.legal = true

/-- The invariant of the machine: the configuration is legal, no output is there before the configuration is, and every
output, on the ports or read back, is one the spec allows. -/
structure State.Inv (s : State) : Prop where
  configLegal : s.configLegal
  loadedFirst : s.config = none → s.outputs = none ∧ s.results = []
  portsSound  : ∀ o, s.outputs = some o → o.sound
  readSound   : ∀ e ∈ s.results, ∀ o, e.2 = .driven o → o.sound

/-- A request whose record operands, if any, are 8 bytes long. -/
def Request.recordsComplete : Request → Prop
  | .load _ => True
  | .evaluate _ _ operands => ∀ bytes, Operand.record bytes ∈ operands → bytes.length = 8

/-- Every record the host is going to present is 8 bytes long. -/
def State.recordsComplete (s : State) : Prop := ∀ q ∈ s.pending, Request.recordsComplete q

/-- From s to t no evaluation failed: what was recorded between is all driven outputs. -/
def noNewFailure (s t : State) : Prop :=
  ∃ new, t.results = new ++ s.results ∧ ∀ e ∈ new, ∀ f, e.2 ≠ .failed f

/-- A run of k steps from s does not end in a fault, and no evaluation of it failed. -/
def safeRun (k : Nat) (s : State) : Prop :=
  (∀ f, Host.Core.run core k s ≠ .fault f) ∧ ∀ t, Host.Core.run core k s = .next t → noNewFailure s t

/-- A port value fits a place of an operand format, whatever an undriven 6-bit port carries. -/
def PortValue.fits : PortValue → OperandKind → Bool
  | .bits v,   .bits w => decide (v < 2 ^ w)
  | .bits v,   .record => decide (v < 2 ^ 64)
  | .undriven, .bits w => decide (6 ≤ w)
  | .undriven, .record => true

/-- What a reference stands for, none where it stands for nothing. -/
def referenced (results : List (String × EvalResult)) (dest : String) (port : Option OutPort) : Option PortValue :=
  (findResult results dest).bind fun o => o.value port

/-- A reference stands for a value that fits its place; the other operands need nothing. -/
def operandReady (results : List (String × EvalResult)) : Operand → OperandKind → Bool
  | .result dest port, kind => match referenced results dest port with
    | some v => v.fits kind
    | none   => false
  | .literal _, _ => true
  | .record _,  _ => true

/-- Every reference of a line stands for a value that fits its place. -/
def lineReady (results : List (String × EvalResult)) (l : Line) : Bool :=
  (l.operands.zip l.op.format).all fun p => operandReady results p.1 p.2

/-- How many free values an operand draws: one where it refers to a port that carries no value. -/
def operandDraws (results : List (String × EvalResult)) : Operand → Nat
  | .result dest port => if referenced results dest port = some .undriven then 1 else 0
  | .literal _ => 0
  | .record _  => 0

/-- A reference to a driven port as the literal of its value; every other operand as it stands. -/
def asLiteral (results : List (String × EvalResult)) : Operand → Operand
  | .result dest port => match referenced results dest port with
    | some (.bits v) => .literal v
    | _              => .result dest port
  | .literal v    => .literal v
  | .record bytes => .record bytes

/-- The references among the operands are all to driven ports of results that are not named `other`. -/
def independentOf (results : List (String × EvalResult)) (other : String) (operands : List Operand) : Prop :=
  ∀ dest port, .result dest port ∈ operands →
    dest ≠ other ∧ ∃ v, referenced results dest port = some (.bits v)

end Machine

end Sys2Proof
end

