-- ==== Sys2Proof/Certificates/Slice0/Obligations.lean ====
section
/-! DEFINITION. The statements for the provers. Each says which rule of spec/ it formalises, or, where it rests on a
choice of the spec's own (92_eei_decisions.md) or of the model's own (notes/assumptions), which one.

"The outputs are driven" is written as one equation, `exec i s = .next { s with outputs := some … }`: it says that the
operation completes, what it drives, and that everything else of the state is as before. -/

open Sys2Proof Sys2Proof.Machine

/-! ### Encodings -/

/-- 30_encoding.md section 4: the OPSEL codes 0x0 to 0x9 decode to the operations they name, and 0xA to 0xF are rejected
by name. The numbering is the spec's own choice (92_eei_decisions.md D15). -/
def Obligations.OpselCodesDecode : Prop :=
  decode 0x0 = .ok .txidx ∧ decode 0x1 = .ok .rxidx ∧ decode 0x2 = .ok .bankkey ∧ decode 0x3 = .ok .affdec ∧
  decode 0x4 = .ok .tonelbl ∧ decode 0x5 = .ok .follow ∧ decode 0x6 = .ok .fbase ∧ decode 0x7 = .ok .txfreq ∧
  decode 0x8 = .ok .rxfreq ∧ decode 0x9 = .ok .decode ∧
  ∀ w : BitVec 4, 10 ≤ w.toNat → decode w = .error (.noOperation w)

/-- 30_encoding.md section 4: encoder and decoder of the OPSEL codes agree in both directions; the codes are the spec's
own choice (92_eei_decisions.md D15). On bytes they agree with anything behind them: that a code travels in a byte as its
low four bits is the model's choice (assumption 4). -/
def Obligations.DecodeAndEncodeAgree : Prop :=
  (∀ i, decode (encode i) = .ok i) ∧ (∀ w i, decode w = .ok i → encode i = w) ∧
  ∀ i rest, decodeBytes (encodeBytes i ++ rest) = .ok (i, rest)

/-- 30_encoding.md section 6: reading the text of a well-formed line gives the line back, every operation, operand form
and operand value. The syntax is the spec's own (92_eei_decisions.md D15); the alphabet of names and the number of
digits written are the model's (assumption 12). -/
def Obligations.ReadingAWrittenLineGivesItBack : Prop :=
  ∀ l : Line, l.wellFormed = true → readLine l.write = .ok l

/-- 30_encoding.md section 1: bit b of record byte k is REC[56-8k+b], and the bytes of the port value are the bytes of
the record. The byte order is the spec's own choice (92_eei_decisions.md D2). -/
def Obligations.RecordPortNumbering : Prop :=
  (∀ (r : Record) (k : Selector) (b : Nat), b < 8 → r.word.getLsbD (56 - 8 * k.toNat + b) = (r.byte k).getLsbD b) ∧
  ∀ r : Record, bytesOfWord r.word = r.bytes

/-- R84: every one of the 2^64 record values is a legal input to every operation, and a record is rejected for its
length only. -/
def Obligations.EveryRecordValueIsLegal : Prop :=
  (∀ w : BitVec 64, ∃ r : Record, r.word = w ∧
    ∀ (s : State) (c : Configuration), s.config = some c → s.inputs.record = r.bytes →
      ∀ i, ∃ o, exec i s = .next { s with outputs := some o }) ∧
  ∀ i s f, exec i s = .fault f → s.inputs.record.length ≠ 8

/-! ### Bit Index Extractor -/

/-- R100: TXIDX. -/
def Obligations.TxidxResult : Prop :=
  decode 0x0 = .ok .txidx ∧
  ∀ (s : State) (c : Configuration) (r : Record), s.config = some c → s.inputs.record = r.bytes →
    ∃ v : RawIndex, exec .txidx s = .next { s with outputs := some (.txidx v) } ∧
      v.getLsbD 5 = r.b0.getLsbD 4 ∧ v.getLsbD 4 = r.b2.getLsbD 2 ∧ v.getLsbD 3 = r.b3.getLsbD 3 ∧
      v.getLsbD 2 = r.b3.getLsbD 2 ∧ v.getLsbD 1 = r.b3.getLsbD 1 ∧ v.getLsbD 0 = r.b3.getLsbD 0 ∧
      v.toNat = 32 * (r.word.getLsbD 28).toNat + 16 * (r.word.getLsbD 10).toNat + 8 * (r.word.getLsbD 3).toNat +
        4 * (r.word.getLsbD 2).toNat + 2 * (r.word.getLsbD 1).toNat + (r.word.getLsbD 0).toNat

/-- R101: RXIDX. -/
def Obligations.RxidxResult : Prop :=
  decode 0x1 = .ok .rxidx ∧
  ∀ (s : State) (c : Configuration) (r : Record), s.config = some c → s.inputs.record = r.bytes →
    ∃ v : RawIndex, exec .rxidx s = .next { s with outputs := some (.rxidx v) } ∧
      v.getLsbD 5 = r.a3.getLsbD 6 ∧ v.getLsbD 4 = r.a3.getLsbD 7 ∧ v.getLsbD 3 = r.a3.getLsbD 0 ∧
      v.getLsbD 2 = r.a3.getLsbD 1 ∧ v.getLsbD 1 = r.a3.getLsbD 2 ∧ v.getLsbD 0 = r.a3.getLsbD 3 ∧
      v.toNat = 32 * (r.word.getLsbD 38).toNat + 16 * (r.word.getLsbD 39).toNat + 8 * (r.word.getLsbD 32).toNat +
        4 * (r.word.getLsbD 33).toNat + 2 * (r.word.getLsbD 34).toNat + (r.word.getLsbD 35).toNat

/-- R102: two records, under any two configurations, that agree on the six TX bits give the same TXI, and two that agree
on the six RX bits the same RXI. -/
def Obligations.ExtractorIndependence : Prop :=
  ∀ (s s' : State) (c c' : Configuration) (r r' : Record), s.config = some c → s'.config = some c' →
    s.inputs.record = r.bytes → s'.inputs.record = r'.bytes →
    ((∀ n ∈ [28, 10, 3, 2, 1, 0], r.word.getLsbD n = r'.word.getLsbD n) →
      ∃ v, exec .txidx s = .next { s with outputs := some (.txidx v) } ∧
        exec .txidx s' = .next { s' with outputs := some (.txidx v) }) ∧
    ((∀ n ∈ [38, 39, 32, 33, 34, 35], r.word.getLsbD n = r'.word.getLsbD n) →
      ∃ v, exec .rxidx s = .next { s with outputs := some (.rxidx v) } ∧
        exec .rxidx s' = .next { s' with outputs := some (.rxidx v) })

/-- 40_bit_index_extractor.md (derived there from the two wirings): every pair of indices is reached by some record. -/
def Obligations.EveryIndexPairIsReached : Prop :=
  ∀ txi rxi : RawIndex, ∃ r : Record, ∀ (s : State) (c : Configuration),
    s.config = some c → s.inputs.record = r.bytes →
      exec .txidx s = .next { s with outputs := some (.txidx txi) } ∧
      exec .rxidx s = .next { s with outputs := some (.rxidx rxi) }

/-! ### Bank key and Affine GF(2) Decoder -/

/-- 41_affine_decoder.md section 1: BANKKEY packs the two selected bytes, the first one in KEY[15:8]; at the default
selector (5, 6) these are B1 and B2. The selector is a configuration field, its default the spec's own choice
(92_eei_decisions.md D2, D8). -/
def Obligations.BankkeyResult : Prop :=
  ∀ (s : State) (c : Configuration) (r : Record), s.config = some c → s.inputs.record = r.bytes →
    ∃ k : Key, exec .bankkey s = .next { s with outputs := some (.bankkey k) } ∧
      k.toNat = 256 * (r.byte c.rxBankKeySel.first).toNat + (r.byte c.rxBankKeySel.second).toNat ∧
      (c.rxBankKeySel = ⟨5, 6⟩ → k.toNat = 256 * r.b1.toNat + r.b2.toNat)

/-- R122: for a registered key and a nonzero x, bit i of IDX is C[i] XOR the parity of M[i][k] AND x[k]. -/
def Obligations.AffdecProduct : Prop :=
  ∀ (s : State) (c : Configuration) (m : AffineModel), s.config = some c →
    lookup c.bankRegistry s.inputs.key = some m → s.inputs.x ≠ 0 →
    ∃ v st, exec .affdec s = .next { s with outputs := some (.affdec (some v) st) } ∧
      ∀ i : Fin 6, v.getLsbD i.val =
        (m.c.getLsbD i.val ^^
          (List.range 8).foldl (fun acc k => acc ^^ (m.m[i].getLsbD k && s.inputs.x.getLsbD k)) false)

/-- R123: with x = 0 and a registered key, AFFDEC gives index 0, whatever M and C are, where the product alone would
give C. -/
def Obligations.AffdecZeroInput : Prop :=
  ∀ (s : State) (c : Configuration) (m : AffineModel), s.config = some c →
    lookup c.bankRegistry s.inputs.key = some m →
    affine m 0 = m.c ∧
    (s.inputs.x = 0 → exec .affdec s = .next { s with outputs := some (.affdec (some 0) .ok) })

/-- 41_affine_decoder.md section 2: an unregistered key gives UNKNOWN_BANK and no index for every x, x = 0 among them.
That the registry check comes first is the spec's own choice (92_eei_decisions.md D20). -/
def Obligations.AffdecUnknownBank : Prop :=
  ∀ (s : State) (c : Configuration), s.config = some c → (∀ m, (s.inputs.key, m) ∉ c.bankRegistry) →
    exec .affdec s = .next { s with outputs := some (.affdec none .unknownBank) }

/-- 41_affine_decoder.md section 2: a decoded index outside SUP is still output, with UNMAPPED_INDEX; under a legal
configuration an index above 33 always is. SUP is the spec's own representation (92_eei_decisions.md D11). -/
def Obligations.AffdecRangeCheck : Prop :=
  ∀ (s : State) (c : Configuration) (m : AffineModel), s.config = some c → c.legal = true →
    lookup c.bankRegistry s.inputs.key = some m →
    ∃ v st, exec .affdec s = .next { s with outputs := some (.affdec (some v) st) } ∧
      (st = .ok ↔ m.sup.getLsbD v.toNat = true) ∧ (st = .unmappedIndex ↔ m.sup.getLsbD v.toNat = false) ∧
      (34 ≤ v.toNat → st = .unmappedIndex)

/-- 41_affine_decoder.md (derived there from the product): the affine law of the nonzero branch, and the linearity of
the product without the constant on the whole byte. -/
def Obligations.AffineLaw : Prop :=
  ∀ (m : AffineModel) (x y : Byte),
    (x ≠ 0 → y ≠ 0 → x ^^^ y ≠ 0 → affine m (x ^^^ y) = affine m x ^^^ affine m y ^^^ m.c) ∧
    linearPart m (x ^^^ y) = linearPart m x ^^^ linearPart m y

/-- 40_bit_index_extractor.md (derived there): under the permutation model with C = 0, AFFDEC of x = A3 gives the index
RXIDX gives, for every A3. -/
def Obligations.RxidxIsAnAffineDecode : Prop :=
  ∀ (s : State) (c : Configuration) (r : Record) (sup : BitVec 64), s.config = some c → s.inputs.record = r.bytes →
    lookup c.bankRegistry s.inputs.key =
      some { m := #v[0x08, 0x04, 0x02, 0x01, 0x80, 0x40], c := 0, sup := sup } → s.inputs.x = r.a3 →
    ∃ v st, exec .rxidx s = .next { s with outputs := some (.rxidx v) } ∧
      exec .affdec s = .next { s with outputs := some (.affdec (some v) st) }

/-- 41_affine_decoder.md (derived there from the encode description) and 90_conflicts.md C8: for a model with C in
1..33 the system for the index y = C is solved by x = 0, which AFFDEC decodes to 0 and not to y; and such a model is
refused at the load. -/
def Obligations.ForbiddenConstantBreaksRoundTrip : Prop :=
  ∀ (s : State) (c : Configuration) (m : AffineModel), s.config = some c →
    lookup c.bankRegistry s.inputs.key = some m → s.inputs.x = 0 → 1 ≤ m.c.toNat → m.c.toNat ≤ 33 →
    linearPart m s.inputs.x = m.c ^^^ m.c ∧
    exec .affdec s = .next { s with outputs := some (.affdec (some 0) .ok) } ∧ m.c ≠ 0 ∧ m.legal = false

/-- 41_affine_decoder.md (derived there from the round-trip scenario of 95_test_vectors.md E6) and 10_state.md sections 3
and 5: under a legal configuration bank (0xAC,0x37) is registered, and it decodes some nonzero x to each index y in 1..31.
That the load refuses a configuration without this is read from 70_reset_and_hazards.md section 1 (assumption 9). -/
def Obligations.ConformingBankDecodesBack : Prop :=
  ∀ (s : State) (c : Configuration), s.config = some c → c.legal = true → s.inputs.key = 0xAC37 →
    ∀ y : RawIndex, 1 ≤ y.toNat → y.toNat ≤ 31 → ∃ x : Byte, x ≠ 0 ∧
      ∀ t : State, t.config = some c → t.inputs.key = s.inputs.key → t.inputs.x = x →
        ∃ st, exec .affdec t = .next { t with outputs := some (.affdec (some y) st) }

/-! ### Tone Table and Follow Resolver -/

/-- R140 and R146: TONELBL gives the code of exactly IDX for a valid, supported index in 0..33, and UNKNOWN otherwise;
never another entry. -/
def Obligations.TonelblResult : Prop :=
  decode 0x4 = .ok .tonelbl ∧
  ∀ (s : State) (c : Configuration), s.config = some c →
    ∃ l : LabelCode, exec .tonelbl s = .next { s with outputs := some (.tonelbl l) } ∧
      (s.inputs.idxValid = false → l.toNat = 0x40) ∧ (s.inputs.supOk = false → l.toNat = 0x40) ∧
      (34 ≤ s.inputs.idx.toNat → l.toNat = 0x40) ∧
      (s.inputs.idxValid = true → s.inputs.supOk = true → s.inputs.idx.toNat ≤ 33 → l.toNat = s.inputs.idx.toNat)

/-- 42_tone_table.md: LBL(0) reads "0" under every legal configuration, LBL(i) reads TONE_LABELS[i], UNKNOWN reads the
host's sentinel, and no other code stands for a text. The codes are the spec's own choice (92_eei_decisions.md D12). -/
def Obligations.LabelTextOfEachCode : Prop :=
  ∀ (c : Configuration) (sentinel : String), c.legal = true →
    labelText c sentinel (lblCode 0) = some "0" ∧
    (∀ i : Fin 34, labelText c sentinel (lblCode (BitVec.ofNat 6 i.val)) = some c.toneLabels[i]) ∧
    labelText c sentinel unknownLabel = some sentinel ∧
    ∀ code : LabelCode, ¬ labelDriven code → labelText c sentinel code = none

/-- 30_encoding.md section 3: where the entries of TONE_LABELS are distinct and the sentinel differs from all of them,
two driven codes read the same exactly when they are equal. The codes are the spec's own choice (92_eei_decisions.md
D12), the premise that of 93_implementation_defined.md I4. -/
def Obligations.LabelEqualityIsCodeEquality : Prop :=
  ∀ (c : Configuration) (sentinel : String), c.labelsDistinct → (∀ i : Fin 34, c.toneLabels[i] ≠ sentinel) →
    ∀ a b : LabelCode, labelDriven a → labelDriven b → (labelText c sentinel a = labelText c sentinel b ↔ a = b)

/-- R160 and R162: FOLLOW gives the TX label when RXZERO and FLAG are both 1, and the RX label otherwise; with RXZERO = 0
the flag is ignored. -/
def Obligations.FollowResult : Prop :=
  decode 0x5 = .ok .follow ∧
  ∀ (s : State) (c : Configuration), s.config = some c →
    ∃ l : LabelCode, exec .follow s = .next { s with outputs := some (.follow l) } ∧
      (s.inputs.rxZero = true → s.inputs.flag = true → l = s.inputs.txLbl) ∧
      (s.inputs.rxZero = false → l = s.inputs.rxLbl) ∧ (s.inputs.flag = false → l = s.inputs.rxLbl)

/-! ### Frequency Decoder -/

/-- R182: FBASE, on the nibbles of its two bytes, with the range and the step it names. -/
def Obligations.FbaseResult : Prop :=
  decode 0x6 = .ok .fbase ∧
  ∀ (s : State) (c : Configuration), s.config = some c →
    ∃ f : FreqWord, exec .fbase s = .next { s with outputs := some (.fbase f) } ∧
      f.toInt = 1000 * (((s.inputs.p.toNat / 16 : Nat) - 1 : Int) * 10 + (s.inputs.p.toNat % 16 : Nat)) +
        100 * (s.inputs.q.toNat / 16 : Nat) + 10 * (s.inputs.q.toNat % 16 : Nat) ∧
      f.toInt % 10 = 0 ∧ -10000 ≤ f.toInt ∧ f.toInt ≤ 156650

/-- 44_frequency_decoder.md section 1: the integer FBASE drives is 1000 times the exact decimal value of the source's
formula, and rounding that value to 3 decimals leaves it unchanged. Integer thousandths are the spec's own choice
(92_eei_decisions.md D4). -/
def Obligations.FbaseIsTheExactDecimal : Prop :=
  ∀ (s : State) (c : Configuration), s.config = some c → ∀ mhz : ℚ,
    mhz = ((s.inputs.p.toNat / 16 : Nat) - 1 : ℚ) * 10 + (s.inputs.p.toNat % 16 : Nat) +
      (s.inputs.q.toNat / 16 : Nat) / 10 + (s.inputs.q.toNat % 16 : Nat) / 100 →
    ∃ f : FreqWord, exec .fbase s = .next { s with outputs := some (.fbase f) } ∧
      (f.toInt : ℚ) = 1000 * mhz ∧ (round (1000 * mhz) : ℚ) / 1000 = mhz

/-- 44_frequency_decoder.md section 2: TXFREQ adds the table delta of exactly the key (A1,A2), and without one the
fallback delta of A2. That the fallback is added to the base, and DELTA_HIT, are the spec's own choices
(92_eei_decisions.md D4, D19). -/
def Obligations.TxfreqResult : Prop :=
  ∀ (s : State) (c : Configuration), s.config = some c → c.legal = true → ∀ k : Key,
    k.toNat = 256 * s.inputs.a1.toNat + s.inputs.a2.toNat →
    (∀ v, (k, v) ∈ c.txDelta → ∃ f : FreqWord, exec .txfreq s = .next { s with outputs := some (.txfreq f true) } ∧
      f.toInt = baseFreq s.inputs.a0 s.inputs.a1 + v) ∧
    ((∀ v, (k, v) ∉ c.txDelta) → ∃ f : FreqWord,
      exec .txfreq s = .next { s with outputs := some (.txfreq f false) } ∧
      f.toInt = baseFreq s.inputs.a0 s.inputs.a1 + 10 * (s.inputs.a2.toNat % 16 : Nat) +
        (if s.inputs.a2.toNat / 16 = 10 then 15 else 0))

/-- 44_frequency_decoder.md section 2: RXFREQ adds the table delta of exactly the key (B1,B2); without one it adds 1.000
MHz when the high nibble of B2 is 0xE, and else gives TXF bit for bit. DELTA_HIT is the spec's own output
(92_eei_decisions.md D4). -/
def Obligations.RxfreqResult : Prop :=
  ∀ (s : State) (c : Configuration), s.config = some c → c.legal = true → ∀ k : Key,
    k.toNat = 256 * s.inputs.b1.toNat + s.inputs.b2.toNat →
    (∀ v, (k, v) ∈ c.rxDelta → ∃ f : FreqWord, exec .rxfreq s = .next { s with outputs := some (.rxfreq f true) } ∧
      f.toInt = baseFreq s.inputs.b0 s.inputs.b1 + v) ∧
    ((∀ v, (k, v) ∉ c.rxDelta) →
      (s.inputs.b2.toNat / 16 = 14 → ∃ f : FreqWord,
        exec .rxfreq s = .next { s with outputs := some (.rxfreq f false) } ∧
        f.toInt = baseFreq s.inputs.b0 s.inputs.b1 + 1000) ∧
      (s.inputs.b2.toNat / 16 ≠ 14 → exec .rxfreq s = .next { s with outputs := some (.rxfreq s.inputs.txf false) }))

/-- 44_frequency_decoder.md (derived there): under a legal configuration no frequency output wraps; TXFREQ, the table
branch of RXFREQ and both frequencies of DECODE lie in -1010000 .. 1156650, the TX fallback branch in
-10000 .. 156815, the split branch of RXFREQ in -9000 .. 157650. -/
def Obligations.FrequencyOutputsInRange : Prop :=
  ∀ (s t : State) (c : Configuration), s.config = some c → c.legal = true →
    (∀ f hit, exec .txfreq s = .next t → t.outputs = some (.txfreq f hit) →
      inFreqRange f ∧ (hit = false → -10000 ≤ f.toInt ∧ f.toInt ≤ 156815)) ∧
    (∀ f hit, exec .rxfreq s = .next t → t.outputs = some (.rxfreq f hit) →
      (hit = true → inFreqRange f) ∧
      (hit = false → s.inputs.b2.toNat / 16 = 14 → -9000 ≤ f.toInt ∧ f.toInt ≤ 157650)) ∧
    (∀ r, exec .decode s = .next t → t.outputs = some (.decode r) → inFreqRange r.txFreq ∧ inFreqRange r.rxFreq)

/-- 44_frequency_decoder.md (derived there): for A1 = 0x47 and A2 = 0xA4, a table with the example entry 0x47A4 -> 55 and
a table without that key give the same F, and only DELTA_HIT differs. -/
def Obligations.ExampleKeyCoincidence : Prop :=
  ∀ (s s' : State) (c c' : Configuration), s.config = some c → s'.config = some c' →
    lookup c.txDelta 0x47A4 = some 55 → lookup c'.txDelta 0x47A4 = none →
    s.inputs.a1 = 0x47 → s.inputs.a2 = 0xA4 → s'.inputs.a0 = s.inputs.a0 → s'.inputs.a1 = 0x47 → s'.inputs.a2 = 0xA4 →
    ∃ f, exec .txfreq s = .next { s with outputs := some (.txfreq f true) } ∧
      exec .txfreq s' = .next { s' with outputs := some (.txfreq f false) }

/-! ### Channel-level composition -/

/-- 45_channel_decode.md: DECODE is the network of the unit operations. Each of its outputs is what the unit operations
drive when their input ports carry what the wiring puts on them: TXIDX and TONELBL give TX_LBL; RXIDX, or BANKKEY and
AFFDEC, and TONELBL give the label and the RXZERO that FOLLOW makes RX_LBL of; TXFREQ gives TX_FREQ, and RXFREQ on it
RX_FREQ. RX_PATH, the selectors and the status before the follow are the spec's own choices (92_eei_decisions.md D7 to
D10, D17). -/
def Obligations.DecodeIsTheNetworkOfTheUnits : Prop :=
  ∀ (s : State) (c : Configuration) (r : Record), s.config = some c → s.inputs.record = r.bytes →
    ∃ (d : ChannelResult) (txi : RawIndex) (rxl : LabelCode) (zero : Bool),
      exec .decode s = .next { s with outputs := some (.decode d) } ∧
      exec .txidx s = .next { s with outputs := some (.txidx txi) } ∧
      (∀ t : State, t.config = some c → t.inputs.idx = txi → t.inputs.idxValid = true → t.inputs.supOk = true →
        exec .tonelbl t = .next { t with outputs := some (.tonelbl d.txLbl) }) ∧
      (c.rxPath = .extractor → ∃ rxi : RawIndex,
        exec .rxidx s = .next { s with outputs := some (.rxidx rxi) } ∧
        d.rxStatus = (if rxi.toNat ≤ 33 then .ok else .unmappedIndex) ∧ zero = (rxi == 0) ∧
        ∀ t : State, t.config = some c → t.inputs.idx = rxi → t.inputs.idxValid = true → t.inputs.supOk = true →
          exec .tonelbl t = .next { t with outputs := some (.tonelbl rxl) }) ∧
      (c.rxPath = .affine → ∃ (key : Key) (idx : Option RawIndex),
        exec .bankkey s = .next { s with outputs := some (.bankkey key) } ∧
        (∀ t : State, t.config = some c → t.inputs.key = key → t.inputs.x = r.byte c.affineXSel →
          exec .affdec t = .next { t with outputs := some (.affdec idx d.rxStatus) }) ∧
        (zero = true ↔ d.rxStatus = .ok ∧ idx = some 0) ∧
        ∀ t : State, t.config = some c → (∀ i, idx = some i → t.inputs.idx = i) →
          (t.inputs.idxValid = true ↔ d.rxStatus ≠ .unknownBank) → (t.inputs.supOk = true ↔ d.rxStatus = .ok) →
          exec .tonelbl t = .next { t with outputs := some (.tonelbl rxl) }) ∧
      (∀ t : State, t.config = some c → t.inputs.rxZero = zero →
        t.inputs.flag = (r.byte c.followSel.byte).getLsbD c.followSel.bit.toNat →
        t.inputs.txLbl = d.txLbl → t.inputs.rxLbl = rxl →
        exec .follow t = .next { t with outputs := some (.follow d.rxLbl) }) ∧
      (∀ t : State, t.config = some c → t.inputs.a0 = r.a0 → t.inputs.a1 = r.a1 → t.inputs.a2 = r.a2 →
        ∃ hit, exec .txfreq t = .next { t with outputs := some (.txfreq d.txFreq hit) }) ∧
      (∀ t : State, t.config = some c → t.inputs.b0 = r.b0 → t.inputs.b1 = r.b1 → t.inputs.b2 = r.b2 →
        t.inputs.txf = d.txFreq → ∃ hit, exec .rxfreq t = .next { t with outputs := some (.rxfreq d.rxFreq hit) })

/-- 45_channel_decode.md and 60_exceptions.md section 1: on the affine path an unregistered key gives UNKNOWN_BANK and
the label UNKNOWN, whatever the follow flag is; the TX label and both frequencies are those of the same configuration
with RX_PATH = EXTRACTOR. No follow without an index is the spec's own choice (92_eei_decisions.md D17), and so are the
key selection and the path (D8, D10). -/
def Obligations.UnknownBankLeavesOtherOutputsValid : Prop :=
  ∀ (s t : State) (c : Configuration) (r : Record), s.config = some c → s.inputs.record = r.bytes →
    t.config = some { c with rxPath := .extractor } → t.inputs.record = r.bytes → c.rxPath = .affine →
    lookup c.bankRegistry (packKey (r.byte c.rxBankKeySel.first) (r.byte c.rxBankKeySel.second)) = none →
    ∃ d e : ChannelResult, exec .decode s = .next { s with outputs := some (.decode d) } ∧
      exec .decode t = .next { t with outputs := some (.decode e) } ∧
      d.rxStatus = .unknownBank ∧ d.rxLbl.toNat = 0x40 ∧
      d.txLbl = e.txLbl ∧ d.txFreq = e.txFreq ∧ d.rxFreq = e.rxFreq

/-- R215: the frequencies of DECODE are TXFREQ on (A0,A1,A2) and RXFREQ on (B0,B1,B2) with TXF = TX_FREQ, and two
configurations with the same delta tables give the same frequencies. -/
def Obligations.FrequenciesIgnoreToneConfiguration : Prop :=
  ∀ (s t : State) (c c' : Configuration) (r : Record), s.config = some c → t.config = some c' →
    s.inputs.record = r.bytes → t.inputs.record = r.bytes → c.txDelta = c'.txDelta → c.rxDelta = c'.rxDelta →
    ∃ d e : ChannelResult, exec .decode s = .next { s with outputs := some (.decode d) } ∧
      exec .decode t = .next { t with outputs := some (.decode e) } ∧
      d.txFreq = (txFrequency c.txDelta r.a0 r.a1 r.a2).1 ∧
      d.rxFreq = (rxFrequency c.rxDelta r.b0 r.b1 r.b2 d.txFreq).1 ∧ d.txFreq = e.txFreq ∧ d.rxFreq = e.rxFreq

/-- 45_channel_decode.md and 43_follow_resolver.md: on the extractor path, when the six RX bits of A3 are 0, RX_LBL is
TX_LBL if the flag at FOLLOW_SEL is 1, UNKNOWN included, and LBL(0) if it is 0, and RX_STATUS stays OK; when one of the
six is 1, the flag changes nothing. The flag's position and the path are configuration fields (92_eei_decisions.md D9,
D10, D17). -/
def Obligations.FollowOnTheExtractorPath : Prop :=
  ∀ (s : State) (c : Configuration) (r : Record), s.config = some c → s.inputs.record = r.bytes →
    c.rxPath = .extractor →
    ∃ d : ChannelResult, exec .decode s = .next { s with outputs := some (.decode d) } ∧
      (r.a3 &&& 0xCF = 0 → d.rxStatus = .ok ∧
        d.rxLbl = if (r.byte c.followSel.byte).getLsbD c.followSel.bit.toNat then d.txLbl else 0) ∧
      (r.a3 &&& 0xCF ≠ 0 → ∀ (t : State) (sel : FollowSel), t.config = some { c with followSel := sel } →
        t.inputs.record = r.bytes → exec .decode t = .next { t with outputs := some (.decode d) })

/-- R217: DECODE depends on the record and the configuration alone, and writes nothing but its outputs: two states with
the same two, whatever else they hold, get equal outputs and keep the rest. -/
def Obligations.DecodeIsPure : Prop :=
  ∀ (s t : State) (c : Configuration) (r : Record), s.config = some c → t.config = some c →
    s.inputs.record = r.bytes → t.inputs.record = r.bytes →
    ∃ d, exec .decode s = .next { s with outputs := some (.decode d) } ∧
      exec .decode t = .next { t with outputs := some (.decode d) }

/-! ### The machine -/

/-- 10_state.md section 1 and 60_exceptions.md section 1: the frame of all ten operations. An evaluation that completes
changes the output ports and nothing else. -/
def Obligations.EvaluationFrame : Prop :=
  ∀ (i : Instr) (s t : State), exec i s = .next t →
    t.config = s.config ∧ t.inputs = s.inputs ∧ t.results = s.results ∧ t.pending = s.pending ∧ t.draws = s.draws ∧
      ∃ o, t.outputs = some o

/-- 10_state.md section 4 (derived there): two evaluations of one operation on equal inputs with the same configuration
have the same outcome: the same outputs, or the same fault or refusal. -/
def Obligations.EqualInputsGiveEqualOutcomes : Prop :=
  ∀ (i : Instr) (s t : State), s.config = t.config → s.inputs = t.inputs →
    (∀ o, exec i s = .next { s with outputs := some o } ↔ exec i t = .next { t with outputs := some o }) ∧
    (∀ f, exec i s = .fault f ↔ exec i t = .fault f) ∧ (∀ q, exec i s = .refused q ↔ exec i t = .refused q)

/-- R25: the configuration is written once and is read-only from then on: no step changes a loaded configuration, and a
step that loads one is the host's load. -/
def Obligations.ConfigurationIsWrittenOnce : Prop :=
  ∀ s s' : State, step s = .next s' →
    (∀ c, s.config = some c → s'.config = some c) ∧
    (s.config = none → s'.config = none ∨ ∃ c rest, s.pending = .load c :: rest ∧ s'.config = some c)

/-- 70_reset_and_hazards.md section 1: the first load of a legal configuration loads every field and does nothing else,
a configuration that breaks a constraint is refused as a whole, and a second load is refused. The refusals are the
treatments of 93_implementation_defined.md I3 and I6; which constraints there are is LegalConfigurations. -/
def Obligations.LoadIsOnceAndLegal : Prop :=
  ∀ (s : State) (c : Configuration) (rest : List Request), s.pending = .load c :: rest →
    (s.config = none → c.legal = true → step s = .next { s with config := some c, pending := rest }) ∧
    (s.config = none → c.legal = false → step s = .refused .illegalConfiguration) ∧
    (s.config ≠ none → step s = .refused .alreadyInitialised)

/-- 93_implementation_defined.md I3, 10_state.md sections 3 and 5 and 41_affine_decoder.md section 2: the constraints a
configuration must meet, one by one. That a delta table with two values for one key is refused is read from "partial map"
(assumption 10); that one without a model for (0xAC,0x37) that solves the encode system of 1..31 is refused is read from
70_reset_and_hazards.md section 1 (assumption 9). -/
def Obligations.LegalConfigurations : Prop :=
  ∀ c : Configuration, c.legal = true ↔
    c.toneLabels[0] = "0" ∧
    (∀ i : Fin 34, i ≠ 0 → ∃ (digits : List Char) (d : Char), c.toneLabels[i].toList = digits ++ ['.', d] ∧
      digits ≠ [] ∧ (∀ ch ∈ digits, ch.isDigit = true) ∧ d.isDigit = true) ∧
    (∀ k m m', (k, m) ∈ c.bankRegistry → (k, m') ∈ c.bankRegistry → m = m') ∧
    (∀ k m, (k, m) ∈ c.bankRegistry → m.sup.getLsbD 0 = true ∧
      (∀ j, 34 ≤ j → j ≤ 63 → m.sup.getLsbD j = false) ∧ ¬ (1 ≤ m.c.toNat ∧ m.c.toNat ≤ 33)) ∧
    (∀ t ∈ [c.txDelta, c.rxDelta], (∀ k v v', (k, v) ∈ t → (k, v') ∈ t → v = v') ∧
      ∀ k v, (k, v) ∈ t → -1000000 ≤ v ∧ v ≤ 1000000) ∧
    (∃ m, ((0xAC37 : Key), m) ∈ c.bankRegistry ∧
      ∀ y : RawIndex, 1 ≤ y.toNat → y.toNat ≤ 31 → ∃ x : Byte, linearPart m x = y ^^^ m.c)

/-- R55: a lookup gives the entry for exactly its key, and none where there is none. -/
def Obligations.LookupIsExact : Prop :=
  ∀ (α : Type) (t : List (Key × α)) (key : Key),
    (∀ v, lookup t key = some v → (key, v) ∈ t) ∧ (lookup t key = none ↔ ∀ v, (key, v) ∉ t) ∧
    ((∀ k v v', (k, v) ∈ t → (k, v') ∈ t → v = v') → ∀ v, (key, v) ∈ t → lookup t key = some v)

/-- 70_reset_and_hazards.md section 1: before the configuration is loaded every operation is refused, and a step that
evaluates has no next state. That it is refused is the spec's own choice (92_eei_decisions.md D18); that it is refused
and not MalformedInput where the record is not 8 bytes long is the model's (assumption 7). -/
def Obligations.EvaluationBeforeLoadIsRefused : Prop :=
  ∀ s : State, s.config = none →
    (∀ i, exec i s = .refused .notInitialised) ∧
    ∀ opsel dest operands rest, s.pending = .evaluate opsel dest operands :: rest → ∃ q, step s = .refused q

/-- 60_exceptions.md section 1: the only fault is MalformedInput, and it is raised exactly by the four operations that
take a record, after the load, when the record is not 8 bytes long. That a longer record is malformed is the spec's own
choice (92_eei_decisions.md D14); that an evaluation before the load is refused first is the model's (assumption 7). -/
def Obligations.MalformedExactlyWhenLengthIsWrong : Prop :=
  ∀ (i : Instr) (s : State) (f : Fault), exec i s = .fault f ↔
    f = .malformedInput ∧ (∃ c, s.config = some c) ∧ i ∈ [Instr.txidx, .rxidx, .bankkey, .decode] ∧
      s.inputs.record.length ≠ 8

/-- 30_encoding.md sections 4 and 6: a step runs the decoded operation. When the host's next request is an evaluation
whose OPSEL code decodes to i and whose operands reach the ports as in t, the step is exec of i at t: the outputs it
drives are then read back under the line's name; where it fails, there are no outputs, the failure is recorded under the
name, and the rest of the agenda stays to be served. The agenda and the read-back are the model's own (assumption 3); that
a failure ends its own evaluation only is read from 60_exceptions.md section 4 (assumption 7). -/
def Obligations.StepRunsTheDecodedOperation : Prop :=
  ∀ (s t : State) (opsel : BitVec 4) (dest : String) (operands : List Operand) (rest : List Request) (i : Instr),
    s.pending = .evaluate opsel dest operands :: rest → decode opsel = .ok i →
    present i operands { s with pending := rest } = .ok t →
    (∀ o u, exec i t = .next u → u.outputs = some o →
      step s = .next { u with results := (dest, .driven o) :: u.results }) ∧
    (∀ f, exec i t = .fault f →
      step s = .next { t with outputs := none, results := (dest, .failed f) :: s.results } ∧ t.pending = rest) ∧
    (∀ q, exec i t = .refused q → step s = .refused q)

/-- 30_encoding.md section 5: a line with an OPSEL code in 0xA..0xF is refused. The codes are the spec's own choice
(92_eei_decisions.md D15). -/
def Obligations.UnknownOpselIsRefused : Prop :=
  ∀ (s : State) (opsel : BitVec 4) (dest : String) (operands : List Operand) (rest : List Request),
    s.pending = .evaluate opsel dest operands :: rest → 10 ≤ opsel.toNat → step s = .refused (.noSuchOperation opsel)

/-- 30_encoding.md sections 1, 4 and 6: operands that fit reach the ports of their operation, in the order of its format
(sections 4 and 6), a 64-bit literal on REC byte by byte as section 1 numbers the port (92_eei_decisions.md D2). That a
literal that fits reaches its port as an unsigned number, that a record port takes a 64-bit literal, and that no other
port changes are the model's choices (assumption 5). -/
def Obligations.LiteralOperandsReachTheirPorts : Prop :=
  ∀ (s : State) (bytes : List Byte) (k x y z i v g t u f : Nat), k < 2 ^ 16 → x < 2 ^ 8 → y < 2 ^ 8 → z < 2 ^ 8 →
    i < 2 ^ 6 → v < 2 → g < 2 → t < 2 ^ 7 → u < 2 ^ 7 → f < 2 ^ 32 →
    (∀ op ∈ [Instr.txidx, .rxidx, .bankkey, .decode],
      present op [.record bytes] s = .ok { s with inputs := { s.inputs with record := bytes } } ∧
      ∀ r : Record, present op [.literal r.word.toNat] s = .ok { s with inputs := { s.inputs with record := r.bytes } }) ∧
    present .affdec [.literal k, .literal x] s =
      .ok { s with inputs := { s.inputs with key := BitVec.ofNat 16 k, x := BitVec.ofNat 8 x } } ∧
    present .tonelbl [.literal i, .literal v, .literal g] s = .ok { s with inputs :=
      { s.inputs with idx := BitVec.ofNat 6 i, idxValid := v == 1, supOk := g == 1 } } ∧
    present .follow [.literal v, .literal g, .literal t, .literal u] s = .ok { s with inputs :=
      { s.inputs with rxZero := v == 1, flag := g == 1, txLbl := BitVec.ofNat 7 t, rxLbl := BitVec.ofNat 7 u } } ∧
    present .fbase [.literal x, .literal y] s =
      .ok { s with inputs := { s.inputs with p := BitVec.ofNat 8 x, q := BitVec.ofNat 8 y } } ∧
    present .txfreq [.literal x, .literal y, .literal z] s = .ok { s with inputs :=
      { s.inputs with a0 := BitVec.ofNat 8 x, a1 := BitVec.ofNat 8 y, a2 := BitVec.ofNat 8 z } } ∧
    present .rxfreq [.literal x, .literal y, .literal z, .literal f] s = .ok { s with inputs :=
      { s.inputs with b0 := BitVec.ofNat 8 x, b1 := BitVec.ofNat 8 y, b2 := BitVec.ofNat 8 z,
                      txf := BitVec.ofNat 32 f } }

/-- 30_encoding.md sections 4 and 6: under a loaded configuration, a step on a well-formed line completes, if each of its
references is to a result that exists and has a port value that fits the operand's place: its outputs are driven and read
back under the line's name, and the configuration and the rest of the agenda stay. The read-back is the model's own
(assumption 3); which operands fit, a 64-bit literal on the record port among them, is the model's choice (assumption 5);
a reference to wires that carry no value draws one free value (assumption 6), and the line completes for each. -/
def Obligations.WellFormedLineCompletes : Prop :=
  ∀ (s : State) (c : Configuration) (l : Line) (rest : List Request), s.config = some c →
    s.pending = l.request :: rest → l.wellFormed = true → lineReady s.results l = true →
    ∃ t o, step s = .next t ∧ t.config = some c ∧ t.pending = rest ∧ t.outputs = some o ∧
      t.results = (l.dest, .driven o) :: s.results ∧
      t.draws = s.draws + (l.operands.map (operandDraws s.results)).sum

/-- 30_encoding.md section 6: a later line may use an earlier result. After a step that evaluated a line named `dest`,
the reference `dest.<port>` stands for the value that evaluation drove on that port, and the bare name for the value of
the only port; what each port reads as is PortsReadWhatWasDriven. That the latest line of a name is meant, and that a bare
name stands for the only port, are the model's choices (assumption 5). -/
def Obligations.LaterLineUsesEarlierResult : Prop :=
  ∀ (s t : State) (opsel : BitVec 4) (dest : String) (operands : List Operand) (rest : List Request) (o : Outputs),
    s.pending = .evaluate opsel dest operands :: rest → step s = .next t → t.outputs = some o →
    (∀ p v, o.read p = some (.bits v) →
      resolve t.results t.draws (.result dest (some p)) = .ok (.bits v, t.draws)) ∧
    (∀ p v, o.solePort = some p → o.read p = some (.bits v) →
      resolve t.results t.draws (.result dest none) = .ok (.bits v, t.draws))

/-- 30_encoding.md sections 3, 4 and 6: what each port of each output tuple reads as, that a tuple has no other port, and
which port a bare name means. A status reads as its 2-bit code, OK 0, UNKNOWN_BANK 1, UNMAPPED_INDEX 2, with 3 for the name
of the failure in a result type only; these codes are the spec's own choice (92_eei_decisions.md D13), and so are the
frequency outputs and DELTA_HIT (D4). IDX without an index carries no value (93_implementation_defined.md I8). A bare name
for the only port is the model's choice (assumption 5). -/
def Obligations.PortsReadWhatWasDriven : Prop :=
  (Status.ok.code.toNat = 0 ∧ Status.unknownBank.code.toNat = 1 ∧ Status.unmappedIndex.code.toNat = 2 ∧
    Fault.malformedInput.status.code.toNat = 3) ∧
  (∀ (v idx : RawIndex) (k : Key) (l : LabelCode) (f : FreqWord) (st : Status) (hit : Bool) (r : ChannelResult),
    (Outputs.txidx v).read .txi = some (.bits v.toNat) ∧ (Outputs.rxidx v).read .rxi = some (.bits v.toNat) ∧
    (Outputs.bankkey k).read .key = some (.bits k.toNat) ∧
    (Outputs.affdec (some idx) st).read .idx = some (.bits idx.toNat) ∧
    (Outputs.affdec none st).read .idx = some .undriven ∧
    (∀ i, (Outputs.affdec i st).read .status = some (.bits st.code.toNat)) ∧
    (Outputs.tonelbl l).read .lbl = some (.bits l.toNat) ∧ (Outputs.follow l).read .outLbl = some (.bits l.toNat) ∧
    (Outputs.fbase f).read .f = some (.bits f.toNat) ∧
    (Outputs.txfreq f hit).read .f = some (.bits f.toNat) ∧
    (Outputs.txfreq f hit).read .deltaHit = some (.bits (if hit then 1 else 0)) ∧
    (Outputs.rxfreq f hit).read .f = some (.bits f.toNat) ∧
    (Outputs.rxfreq f hit).read .deltaHit = some (.bits (if hit then 1 else 0)) ∧
    (Outputs.decode r).read .txFreq = some (.bits r.txFreq.toNat) ∧
    (Outputs.decode r).read .rxFreq = some (.bits r.rxFreq.toNat) ∧
    (Outputs.decode r).read .txLbl = some (.bits r.txLbl.toNat) ∧
    (Outputs.decode r).read .rxLbl = some (.bits r.rxLbl.toNat) ∧
    (Outputs.decode r).read .rxStatus = some (.bits r.rxStatus.code.toNat)) ∧
  ∀ (o : Outputs) (p : OutPort),
    (o.read p ≠ none ↔ match o with
      | .txidx _ => p = .txi
      | .rxidx _ => p = .rxi
      | .bankkey _ => p = .key
      | .affdec _ _ => p = .idx ∨ p = .status
      | .tonelbl _ => p = .lbl
      | .follow _ => p = .outLbl
      | .fbase _ => p = .f
      | .txfreq _ _ => p = .f ∨ p = .deltaHit
      | .rxfreq _ _ => p = .f ∨ p = .deltaHit
      | .decode _ => p = .txFreq ∨ p = .rxFreq ∨ p = .txLbl ∨ p = .rxLbl ∨ p = .rxStatus) ∧
    (o.solePort = some p ↔ ∀ q, o.read q ≠ none ↔ q = p)

/-- 30_encoding.md section 6: one line is one evaluation, and a reference is dataflow: putting a line's operands on the
ports gives the same outcome whether a reference to a driven port or the literal of its value is written, for every
operation, all operands and every state. How a value reaches a port is the model's choice (assumption 5). -/
def Obligations.ReferenceActsAsItsValue : Prop :=
  ∀ (i : Instr) (operands : List Operand) (s : State),
    present i (operands.map (asLiteral s.results)) s = present i operands s

/-- 41_affine_decoder.md and 42_tone_table.md, with 93_implementation_defined.md I8: when AFFDEC found no bank, TONELBL of
its IDX with IDXVALID = 0 runs and gives UNKNOWN, whatever the IDX wires carry. What they carry is the model's free value
(assumption 6); the statement holds for every value of it. -/
def Obligations.NoIndexMeansNoLabel : Prop :=
  ∀ (s : State) (c : Configuration) (a dest : String) (supOk : Nat) (rest : List Request), s.config = some c →
    findResult s.results a = some (.affdec none .unknownBank) → supOk < 2 →
    s.pending = .evaluate 0x4 dest [.result a (some .idx), .literal 0, .literal supOk] :: rest →
    ∃ t, step s = .next t ∧ t.outputs = some (.tonelbl unknownLabel) ∧ t.config = some c ∧ t.pending = rest

/-- 60_exceptions.md section 4: no evaluation observes another. Two evaluations that end one after the other, each with
its outputs or with MalformedInput, end in the other order too, each in the same way, and leave the same configuration
and the same rest; their references, if any, are to driven ports of earlier results that neither of the two names.
Evaluations as whole steps are the model's choice (assumption 11); that a failure ends its own evaluation only is read from
the same section (assumption 7). -/
def Obligations.EvaluationsCommute : Prop :=
  ∀ (s t : State) (c : Configuration) (op op' : BitVec 4) (d d' : String) (os os' : List Operand)
    (rest : List Request), s.config = some c → independentOf s.results d' os → independentOf s.results d os' →
    s.pending = .evaluate op d os :: .evaluate op' d' os' :: rest → Host.Core.run Sys2Proof.core 2 s = .next t →
    ∃ (o o' : EvalResult) (t' : State),
      Host.Core.run Sys2Proof.core 2 { s with pending := .evaluate op' d' os' :: .evaluate op d os :: rest } = .next t' ∧
      t.results = (d', o') :: (d, o) :: s.results ∧ t'.results = (d, o) :: (d', o') :: s.results ∧
      t.config = some c ∧ t'.config = some c ∧ t.pending = rest ∧ t'.pending = rest ∧ t.draws = t'.draws

/-- 10_state.md section 5: before initialisation there is no configuration and no output, and the invariant holds there.
The zeros on the input ports and the empty agenda are the model's choice (assumption 2), and nothing is said of them. -/
def Obligations.ResetMeetsTheInvariant : Prop :=
  State.reset.config = none ∧ State.reset.outputs = none ∧ State.reset.Inv

/-- 30_encoding.md section 3, 41_affine_decoder.md section 2, 44_frequency_decoder.md section 2 and 70_reset_and_hazards.md
section 1: every step keeps the invariant. The configuration stays legal; on the ports and read back, LBL of TONELBL and
the labels of DECODE are label codes that are driven, no status of AFFDEC or DECODE is MALFORMED_INPUT, AFFDEC has an index
exactly where the bank is known, F of FBASE, of TXFREQ, of a table hit of RXFREQ and of DECODE is in its range, and RX_LBL
is UNKNOWN wherever RX_STATUS is not OK. Of OUTLBL of FOLLOW and of F of RXFREQ with DELTA_HIT = 0 the invariant says
nothing, because they may be what an input port carries: HandedOnValuesStaySound says it under a premise on the inputs. The
codes and the range are the spec's own choices (92_eei_decisions.md D4, D5, D11 to D13). -/
def Obligations.StepKeepsTheInvariant : Prop :=
  ∀ s s' : State, s.Inv → step s = .next s' → s'.Inv

/-- 43_follow_resolver.md and 44_frequency_decoder.md section 2: the two operations that may hand on an input. FOLLOW of
two driven label codes drives a driven label code. RXFREQ under a legal configuration drives a frequency in -9000 ..
157650 in the split case, whatever TXF carries, and one in -1010000 .. 1156650 in every case if TXF carries such a one.
The codes and the range are the spec's own choices (92_eei_decisions.md D4, D5, D12). -/
def Obligations.HandedOnValuesStaySound : Prop :=
  ∀ (s : State) (c : Configuration), s.config = some c → c.legal = true →
    (labelDriven s.inputs.txLbl → labelDriven s.inputs.rxLbl →
      ∃ l, exec .follow s = .next { s with outputs := some (.follow l) } ∧ labelDriven l) ∧
    ∃ f hit, exec .rxfreq s = .next { s with outputs := some (.rxfreq f hit) } ∧
      (hit = false → s.inputs.b2.toNat / 16 = 14 → -9000 ≤ f.toInt ∧ f.toInt ≤ 157650) ∧
      (inFreqRange s.inputs.txf → inFreqRange f)

/-- 60_exceptions.md section 1: the only hard failure is a record of the wrong length. While every record the host
presents is 8 bytes long, no run of any length from any state ends in a fault, and none of its evaluations fails. -/
def Obligations.CompleteRecordsNeverFault : Prop :=
  ∀ s : State, s.recordsComplete → ∀ k, safeRun k s

/-- 60_exceptions.md sections 1 and 4: from every state whose agenda holds only records of 8 bytes, a step fails no
evaluation and leaves an agenda of such records; and no step from any state ends in a fault, because a failure ends its
own evaluation only (assumption 7). A step may still be refused, which ends the run (assumption 7). That a longer
record is malformed is the spec's own choice (92_eei_decisions.md D14). -/
def Obligations.StepKeepsRecordsComplete : Prop :=
  (∀ s s' : State, s.recordsComplete → step s = .next s' → s'.recordsComplete ∧ noNewFailure s s') ∧
  ∀ (s : State) (f : Fault), step s ≠ .fault f
end

