-- ==== Sys2Proof/Laws/State.lean ====
section
/-! SUPPORT. One lemma per field for each update of the state, true by rfl, so that no proof unfolds an update. -/

namespace Sys2Proof.Machine

variable (s : State)

@[simp] theorem State.reset_config : State.reset.config = none := rfl
@[simp] theorem State.reset_inputs : State.reset.inputs = Inputs.zero := rfl
@[simp] theorem State.reset_outputs : State.reset.outputs = none := rfl
@[simp] theorem State.reset_results : State.reset.results = [] := rfl
@[simp] theorem State.reset_pending : State.reset.pending = [] := rfl
@[simp] theorem State.reset_draws : State.reset.draws = 0 := rfl

@[simp] theorem State.withFetchWord_config (n w : Nat) :
    (s.withFetchWord n w).config = some (configOrExample s.config) := rfl
@[simp] theorem State.withFetchWord_inputs (n w : Nat) : (s.withFetchWord n w).inputs = s.inputs := rfl
@[simp] theorem State.withFetchWord_outputs (n w : Nat) : (s.withFetchWord n w).outputs = s.outputs := rfl
@[simp] theorem State.withFetchWord_results (n w : Nat) : (s.withFetchWord n w).results = s.results := rfl
@[simp] theorem State.withFetchWord_pending (n w : Nat) :
    (s.withFetchWord n w).pending = tableRequest n w :: s.pending := rfl
@[simp] theorem State.withFetchWord_draws (n w : Nat) : (s.withFetchWord n w).draws = s.draws := rfl

@[simp] theorem State.readBack_config (dest : String) : (s.readBack dest).config = s.config := by
  unfold State.readBack; split <;> rfl
@[simp] theorem State.readBack_inputs (dest : String) : (s.readBack dest).inputs = s.inputs := by
  unfold State.readBack; split <;> rfl
@[simp] theorem State.readBack_outputs (dest : String) : (s.readBack dest).outputs = s.outputs := by
  unfold State.readBack; split <;> rfl
@[simp] theorem State.readBack_pending (dest : String) : (s.readBack dest).pending = s.pending := by
  unfold State.readBack; split <;> rfl
@[simp] theorem State.readBack_draws (dest : String) : (s.readBack dest).draws = s.draws := by
  unfold State.readBack; split <;> rfl
theorem State.readBack_results {s : State} {o : Outputs} (dest : String) (h : s.outputs = some o) :
    (s.readBack dest).results = (dest, .driven o) :: s.results := by
  simp [State.readBack, h]

@[simp] theorem State.recordFailure_config (dest : String) (f : Fault) :
    (s.recordFailure dest f).config = s.config := rfl
@[simp] theorem State.recordFailure_inputs (dest : String) (f : Fault) :
    (s.recordFailure dest f).inputs = s.inputs := rfl
@[simp] theorem State.recordFailure_outputs (dest : String) (f : Fault) : (s.recordFailure dest f).outputs = none := rfl
@[simp] theorem State.recordFailure_pending (dest : String) (f : Fault) :
    (s.recordFailure dest f).pending = s.pending := rfl
@[simp] theorem State.recordFailure_draws (dest : String) (f : Fault) :
    (s.recordFailure dest f).draws = s.draws := rfl
@[simp] theorem State.recordFailure_results (dest : String) (f : Fault) :
    (s.recordFailure dest f).results = (dest, .failed f) :: s.results := rfl

end Sys2Proof.Machine
end

