-- ==== Sys2Proof/Laws/Ops.lean ====
section
/-! SUPPORT. One lemma per shared operation that says everything it can do; the proofs cite these and do not unfold the
operations. -/

namespace Sys2Proof

/-! ### Records -/

@[simp] theorem Record.ofBytes_bytes (r : Record) : Record.ofBytes r.bytes = some r := rfl

theorem Record.bytes_length (r : Record) : r.bytes.length = 8 := rfl

/-- Eight bytes are a record, and only eight bytes are. -/
theorem Record.ofBytes_eq_some_iff {bs : List Byte} {r : Record} : Record.ofBytes bs = some r ↔ bs = r.bytes := by
  constructor
  · intro h
    unfold Record.ofBytes at h
    split at h
    · cases h; rfl
    · cases h
  · rintro rfl; rfl

theorem Record.exists_of_length {bs : List Byte} (h : bs.length = 8) : ∃ r : Record, bs = r.bytes := by
  match bs, h with
  | [a0, a1, a2, a3, b0, b1, b2, b3], _ => exact ⟨⟨a0, a1, a2, a3, b0, b1, b2, b3⟩, rfl⟩

theorem Record.ofBytes_eq_none_iff {bs : List Byte} : Record.ofBytes bs = none ↔ bs.length ≠ 8 := by
  constructor
  · intro h hl
    obtain ⟨r, rfl⟩ := Record.exists_of_length hl
    simp at h
  · intro h
    cases hr : Record.ofBytes bs with
    | none => rfl
    | some r => exact absurd (Record.ofBytes_eq_some_iff.mp hr ▸ r.bytes_length) h

namespace Machine

/-! ### The assembly of an index, the parity tree, nibbles -/

theorem index6_toNat (b5 b4 b3 b2 b1 b0 : Bool) : (index6 b5 b4 b3 b2 b1 b0).toNat =
    32 * b5.toNat + 16 * b4.toNat + 8 * b3.toNat + 4 * b2.toNat + 2 * b1.toNat + b0.toNat := by
  revert b5 b4 b3 b2 b1 b0; decide

/-- Bit i of an assembled index is its i-th bit. -/
theorem index6_bits (b5 b4 b3 b2 b1 b0 : Bool) :
    (index6 b5 b4 b3 b2 b1 b0).getLsbD 5 = b5 ∧ (index6 b5 b4 b3 b2 b1 b0).getLsbD 4 = b4 ∧
    (index6 b5 b4 b3 b2 b1 b0).getLsbD 3 = b3 ∧ (index6 b5 b4 b3 b2 b1 b0).getLsbD 2 = b2 ∧
    (index6 b5 b4 b3 b2 b1 b0).getLsbD 1 = b1 ∧ (index6 b5 b4 b3 b2 b1 b0).getLsbD 0 = b0 := by
  revert b5 b4 b3 b2 b1 b0; decide

/-- Two indices assembled from bits are equal exactly when the bits are. -/
theorem index6_inj {b5 b4 b3 b2 b1 b0 c5 c4 c3 c2 c1 c0 : Bool}
    (h : index6 b5 b4 b3 b2 b1 b0 = index6 c5 c4 c3 c2 c1 c0) :
    b5 = c5 ∧ b4 = c4 ∧ b3 = c3 ∧ b2 = c2 ∧ b1 = c1 ∧ b0 = c0 := by
  obtain ⟨h5, h4, h3, h2, h1, h0⟩ := index6_bits b5 b4 b3 b2 b1 b0
  obtain ⟨k5, k4, k3, k2, k1, k0⟩ := index6_bits c5 c4 c3 c2 c1 c0
  rw [h] at h5 h4 h3 h2 h1 h0
  exact ⟨h5.symm.trans k5, h4.symm.trans k4, h3.symm.trans k3, h2.symm.trans k2, h1.symm.trans k1, h0.symm.trans k0⟩

/-- Every index is assembled from its bits. -/
theorem index6_of_bits (v : RawIndex) : index6 (v.getLsbD 5) (v.getLsbD 4) (v.getLsbD 3) (v.getLsbD 2) (v.getLsbD 1)
    (v.getLsbD 0) = v := by
  revert v; decide

@[simp] theorem gf2Dot_zero (row : BitVec 8) : gf2Dot row 0#8 = false := by simp [gf2Dot]

/-- A packed key is first * 256 + second (30_encoding.md R77). -/
theorem packKey_toNat (a b : Byte) : (packKey a b).toNat = 256 * a.toNat + b.toNat := by
  have h : (packKey a b).toNat = a.toNat <<< 8 ||| b.toNat := BitVec.toNat_append a b
  rw [h, ← Nat.shiftLeft_add_eq_or_of_lt b.isLt, Nat.shiftLeft_eq]
  omega

theorem hn_eq (b : Byte) : hn b = b.toNat / 16 := by revert b; decide +kernel
theorem ln_eq (b : Byte) : ln b = b.toNat % 16 := by revert b; decide +kernel
theorem hn_lt (b : Byte) : hn b < 16 := (b.extractLsb' 4 4).isLt
theorem ln_lt (b : Byte) : ln b < 16 := (b.extractLsb' 0 4).isLt

/-! ### Evaluations -/

@[simp] theorem drive_eq_next (s : State) (o : Outputs) : drive s o = .next { s with outputs := some o } := rfl

@[simp] theorem withConfig_some {s : State} {c : Configuration} (h : s.config = some c)
    (run : Configuration → StepOutcome) : withConfig s run = run c := by
  simp [withConfig, h]

@[simp] theorem withConfig_none {s : State} (h : s.config = none) (run : Configuration → StepOutcome) :
    withConfig s run = .refused .notInitialised := by
  simp [withConfig, h]

/-- A next state under `withConfig` comes from the run under the loaded configuration. -/
theorem withConfig_next {s t : State} {run : Configuration → StepOutcome} (h : withConfig s run = .next t) :
    ∃ c, s.config = some c ∧ run c = .next t := by
  cases hc : s.config with
  | none => simp [withConfig, hc] at h
  | some c => exact ⟨c, rfl, by simpa [withConfig, hc] using h⟩

theorem withRecord_bytes {s : State} {c : Configuration} {r : Record} (hc : s.config = some c)
    (hr : s.inputs.record = r.bytes) (run : Configuration → Record → Outputs) :
    withRecord s run = .next { s with outputs := some (run c r) } := by
  simp [withRecord, withConfig, hc, hr]

theorem withRecord_malformed {s : State} {c : Configuration} (hc : s.config = some c)
    (hr : s.inputs.record.length ≠ 8) (run : Configuration → Record → Outputs) :
    withRecord s run = .fault .malformedInput := by
  simp [withRecord, withConfig, hc, Record.ofBytes_eq_none_iff.mpr hr]

/-- A next state under `withRecord`: the configuration is loaded, the record has eight bytes, and the outputs of the
run are driven. -/
theorem withRecord_next {s t : State} {run : Configuration → Record → Outputs} (h : withRecord s run = .next t) :
    ∃ c r, s.config = some c ∧ s.inputs.record = r.bytes ∧ t = { s with outputs := some (run c r) } := by
  obtain ⟨c, hc, hrun⟩ := withConfig_next h
  cases hr : Record.ofBytes s.inputs.record with
  | none => simp [hr] at hrun
  | some r =>
    refine ⟨c, r, hc, Record.ofBytes_eq_some_iff.mp hr, ?_⟩
    simpa [hr, eq_comm] using hrun

/-- A fault under `withRecord`: the configuration is loaded and the record has not eight bytes. -/
theorem withRecord_fault {s : State} {f : Fault} {run : Configuration → Record → Outputs}
    (h : withRecord s run = .fault f) : (∃ c, s.config = some c) ∧ s.inputs.record.length ≠ 8 := by
  cases hc : s.config with
  | none => simp [withRecord, withConfig, hc] at h
  | some c =>
    refine ⟨⟨c, rfl⟩, fun hl => ?_⟩
    obtain ⟨r, hr⟩ := Record.exists_of_length hl
    rw [withRecord_bytes hc hr] at h
    cases h

/-! ### Requests -/

@[simp] theorem endEvaluation_next (s t : State) (dest : String) :
    endEvaluation s dest (.next t) = .next (t.readBack dest) := rfl
@[simp] theorem endEvaluation_fault (s : State) (dest : String) (f : Fault) :
    endEvaluation s dest (.fault f) = .next (s.recordFailure dest f) := rfl
@[simp] theorem endEvaluation_refused (s : State) (dest : String) (r : Refusal) :
    endEvaluation s dest (.refused r) = .refused r := rfl

/-- A next state at the end of an evaluation: its outputs were read back, or its failure was recorded. -/
theorem endEvaluation_eq_next {s t : State} {dest : String} {out : StepOutcome}
    (h : endEvaluation s dest out = .next t) :
    (∃ u, out = .next u ∧ t = u.readBack dest) ∨ ∃ f, out = .fault f ∧ t = s.recordFailure dest f := by
  cases out with
  | next u => exact .inl ⟨u, rfl, by simpa [eq_comm] using h⟩
  | fault f => exact .inr ⟨f, rfl, by simpa [eq_comm] using h⟩
  | refused r => cases h

/-- An evaluation that failed stops nothing else. -/
theorem endEvaluation_ne_fault (s : State) (dest : String) (out : StepOutcome) (f : Fault) :
    endEvaluation s dest out ≠ .fault f := by
  cases out <;> simp

/-- Format F-REC drives the record port, with the one operand value it has, and nothing else. -/
theorem driveRec_eq_some {values : List OperandValue} {ports ports' : Inputs} (h : driveRec values ports = some ports') :
    ∃ r bytes, values = [r] ∧ r.asRecord = some bytes ∧ ports' = { ports with record := bytes } := by
  unfold driveRec at h
  split at h
  · rename_i r
    cases hr : r.asRecord with
    | none => simp [hr] at h
    | some bytes => exact ⟨r, bytes, rfl, hr, by simpa [hr, eq_comm] using h⟩
  · cases h

/-- A one-bit operand reaches its port as that bit. -/
theorem asBit_of_lt {v : Nat} (h : v < 2) : OperandValue.asBit (.bits v) = some (v == 1) := by
  match v, h with
  | 0, _ => rfl
  | 1, _ => rfl

/-- An operand that fits reaches its port. -/
theorem asBits_of_lt {w v : Nat} (h : v < 2 ^ w) : OperandValue.asBits w (.bits v) = some (BitVec.ofNat w v) := by
  simp [OperandValue.asBits, h]

/-- Operands change the input ports and the number of free values drawn, and nothing else. -/
theorem present_ok {i : Instr} {operands : List Operand} {s t : State} (h : present i operands s = .ok t) :
    ∃ values ports draws, resolveAll s.results s.draws operands = .ok (values, draws) ∧
      drivePorts i values s.inputs = some ports ∧ t = { s with inputs := ports, draws := draws } := by
  unfold present at h
  cases hv : resolveAll s.results s.draws operands with
  | error r => rw [hv] at h; cases h
  | ok p =>
    obtain ⟨values, draws⟩ := p
    rw [hv] at h
    cases hp : drivePorts i values s.inputs with
    | none => simp [hp] at h
    | some ports =>
      refine ⟨values, ports, draws, rfl, hp, ?_⟩
      simpa [hp, eq_comm] using h

/-- A next state of an evaluation: the code decoded, the operands reached their ports, and the operation drove its
outputs, which were read back, or failed, which was recorded. -/
theorem evaluate_next {opsel : BitVec 4} {dest : String} {operands : List Operand} {s t : State}
    (h : evaluate opsel dest operands s = .next t) :
    ∃ i u, decode opsel = .ok i ∧ present i operands s = .ok u ∧
      ((∃ v, exec i u = .next v ∧ t = v.readBack dest) ∨ ∃ f, exec i u = .fault f ∧ t = u.recordFailure dest f) := by
  unfold evaluate at h
  cases hd : decode opsel with
  | error e => rw [hd] at h; cases h
  | ok i =>
    rw [hd] at h
    cases hp : present i operands s with
    | error r => simp [hp] at h
    | ok u => exact ⟨i, u, rfl, hp, endEvaluation_eq_next (by simpa [hp] using h)⟩

/-- No evaluation ends the run with a fault. -/
theorem evaluate_ne_fault (opsel : BitVec 4) (dest : String) (operands : List Operand) (s : State) (f : Fault) :
    evaluate opsel dest operands s ≠ .fault f := by
  unfold evaluate
  split
  · simp
  · split
    · simp
    · exact endEvaluation_ne_fault _ _ _ _

/-- A next state of the load: nothing was loaded before, the configuration is legal, and it is loaded. -/
theorem loadConfiguration_next {c : Configuration} {s t : State} (h : loadConfiguration c s = .next t) :
    s.config = none ∧ c.legal = true ∧ t = { s with config := some c } := by
  unfold loadConfiguration at h
  cases hc : s.config with
  | some d => simp [hc] at h
  | none =>
    by_cases hl : c.legal = true
    · exact ⟨rfl, hl, by simpa [hc, hl, eq_comm] using h⟩
    · simp [hc, hl] at h

@[simp] theorem step_idle {s : State} (h : s.pending = []) : step s = .next s := by simp [step, h]

theorem step_serve {s : State} {q : Request} {rest : List Request} (h : s.pending = q :: rest) :
    step s = serve q { s with pending := rest } := by simp [step, h]

/-- Everything a step can do: nothing where nothing is asked, the load, or an evaluation. -/
theorem step_next {s t : State} (h : step s = .next t) :
    (s.pending = [] ∧ t = s) ∨
    (∃ c rest, s.pending = .load c :: rest ∧ s.config = none ∧ c.legal = true ∧
      t = { s with config := some c, pending := rest }) ∨
    (∃ opsel dest operands rest, s.pending = .evaluate opsel dest operands :: rest ∧
      evaluate opsel dest operands { s with pending := rest } = .next t) := by
  match hp : s.pending with
  | [] =>
    rw [step_idle hp] at h
    cases h
    exact .inl ⟨rfl, rfl⟩
  | .load c :: rest =>
    rw [step_serve hp] at h
    obtain ⟨h1, h2, h3⟩ := loadConfiguration_next h
    exact .inr (.inl ⟨c, rest, rfl, h1, h2, h3⟩)
  | .evaluate opsel dest operands :: rest =>
    rw [step_serve hp] at h
    exact .inr (.inr ⟨opsel, dest, operands, rest, rfl, h⟩)

end Machine

end Sys2Proof
end

