-- ==== Sys2Proof/Laws/PerInstr.lean ====
section
/-! SUPPORT. Statements made for every operation, one lemma per constructor. -/

namespace Sys2Proof.Laws

/-- A mnemonic names its operation alone, holds no space, and its operation takes at least one operand. -/
def Mnemonic.Statement (i : Instr) : Prop :=
  Instr.ofMnemonic i.mnemonic.toList = some i ∧ i.mnemonic.toList.all (· != ' ') = true ∧ i.format ≠ []

theorem Mnemonic.txidx : Mnemonic.Statement .txidx := by unfold Mnemonic.Statement; decide
theorem Mnemonic.rxidx : Mnemonic.Statement .rxidx := by unfold Mnemonic.Statement; decide
theorem Mnemonic.bankkey : Mnemonic.Statement .bankkey := by unfold Mnemonic.Statement; decide
theorem Mnemonic.affdec : Mnemonic.Statement .affdec := by unfold Mnemonic.Statement; decide
theorem Mnemonic.tonelbl : Mnemonic.Statement .tonelbl := by unfold Mnemonic.Statement; decide
theorem Mnemonic.follow : Mnemonic.Statement .follow := by unfold Mnemonic.Statement; decide
theorem Mnemonic.fbase : Mnemonic.Statement .fbase := by unfold Mnemonic.Statement; decide
theorem Mnemonic.txfreq : Mnemonic.Statement .txfreq := by unfold Mnemonic.Statement; decide
theorem Mnemonic.rxfreq : Mnemonic.Statement .rxfreq := by unfold Mnemonic.Statement; decide
theorem Mnemonic.decode : Mnemonic.Statement .decode := by unfold Mnemonic.Statement; decide

end Sys2Proof.Laws
end

