-- ==== Sys2Proof/Tests/Slice0.lean ====
section
/-! SUPPORT. The model's own tests: words written out from 30_encoding.md R82, vectors of 95_test_vectors.md (their
expected values are the spec's), one ill-formed term for each check, and, for every statement with hypotheses, a concrete
state that meets them, at the boundary of each clause. -/

namespace Sys2Proof.Tests

open Sys2Proof.Machine

/-! ### Helpers -/

/-- The block under CFG-T with the input ports given. -/
def under (path : RxPath) (ports : Inputs) : State :=
  { State.reset with config := some (.cfgT path), inputs := ports }

/-- The block under a configuration and a record. -/
def underConfig (c : Configuration) (r : Record) : State :=
  { State.reset with config := some c, inputs := { Inputs.zero with record := r.bytes } }

/-- The outputs an outcome drove. -/
def outputsOf : StepOutcome → Option Outputs
  | .next t => t.outputs
  | _ => none

/-- The fault or the refusal of an outcome. -/
def stopOf : StepOutcome → Option (Fault ⊕ Refusal)
  | .next _ => none
  | .fault f => some (.inl f)
  | .refused r => some (.inr r)

/-- The record of P1 (95_test_vectors.md): 0xF5520000_00000083. -/
def recP1 : Record := ⟨0xF5, 0x52, 0x00, 0x00, 0x00, 0x00, 0x00, 0x83⟩
/-- The record of P3: 0x2147A400_2100E080. -/
def recP3 : Record := ⟨0x21, 0x47, 0xA4, 0x00, 0x21, 0x00, 0xE0, 0x80⟩
/-- The record of P4: 0xF5500022_00123481. -/
def recP4 : Record := ⟨0xF5, 0x50, 0x00, 0x22, 0x00, 0x12, 0x34, 0x81⟩
/-- The record of P5: 0x2147B4FF_2152E500. -/
def recP5 : Record := ⟨0x21, 0x47, 0xB4, 0xFF, 0x21, 0x52, 0xE5, 0x00⟩

/-! ### Decoding (30_encoding.md R82: OPSEL bit 3 first) -/

theorem test_decode_txidx   : decode 0b0000 = .ok .txidx := by decide
theorem test_decode_rxidx   : decode 0b0001 = .ok .rxidx := by decide
theorem test_decode_bankkey : decode 0b0010 = .ok .bankkey := by decide
theorem test_decode_affdec  : decode 0b0011 = .ok .affdec := by decide
theorem test_decode_tonelbl : decode 0b0100 = .ok .tonelbl := by decide
theorem test_decode_follow  : decode 0b0101 = .ok .follow := by decide
theorem test_decode_fbase   : decode 0b0110 = .ok .fbase := by decide
theorem test_decode_txfreq  : decode 0b0111 = .ok .txfreq := by decide
theorem test_decode_rxfreq  : decode 0b1000 = .ok .rxfreq := by decide
theorem test_decode_decode  : decode 0b1001 = .ok .decode := by decide
theorem test_decode_reserved : ∀ w : BitVec 4, 0b1010 ≤ w.toNat → decode w = .error (.noOperation w) := by decide
theorem test_decode_no_byte : decodeBytes [] = .error .noByte := by decide
theorem test_table_words : decodeTableWord 8 0x9 = some .decode ∧ decodeTableWord 8 0xA = none := by decide

/-- No two rows of the table have one code. -/
theorem test_table_rows_disjoint : opcodeTable.Pairwise fun a b => a.code ≠ b.code := by decide

/-- From reset, the word of every operation runs as the first step. -/
theorem test_every_word_runs_after_reset : ∀ i ∈ Instr.all,
    (outputsOf (step (State.reset.withFetchWord 8 (encode i).toNat))).isSome = true := by decide

/-! ### The operations (95_test_vectors.md section 3 and 4) -/

/-- V-TX-8. -/
theorem test_txidx_last_mapped : outputsOf (exec .txidx (underConfig (.cfgT .extractor)
    ⟨0, 0, 0, 0, 0x10, 0, 0x00, 0x01⟩)) = some (.txidx 33) := by decide
/-- V-TX-6, every other bit set. -/
theorem test_txidx_other_bits : outputsOf (exec .txidx (underConfig (.cfgT .extractor)
    ⟨0xFF, 0xFF, 0xFF, 0xFF, 0xEF, 0xFF, 0xFB, 0xF0⟩)) = some (.txidx 0) := by decide
/-- V-RX-13. -/
theorem test_rxidx_unmapped : outputsOf (exec .rxidx (underConfig (.cfgT .extractor)
    ⟨0, 0, 0, 0x45, 0, 0, 0, 0⟩)) = some (.rxidx 42) := by decide
/-- V-RX-14. -/
theorem test_rxidx_swapped : outputsOf (exec .rxidx (underConfig (.cfgT .extractor)
    ⟨0, 0, 0, 0x88, 0, 0, 0, 0⟩)) = some (.rxidx 17) := by decide
/-- V-KEY-1. -/
theorem test_bankkey_default : outputsOf (exec .bankkey (underConfig (.cfgT .affine)
    ⟨0, 0, 0, 0, 0, 0xAC, 0x37, 0⟩)) = some (.bankkey 0xAC37) := by decide
/-- V-KEY-3, the order matters. -/
theorem test_bankkey_order : outputsOf (exec .bankkey (underConfig { Configuration.cfgT .affine with rxBankKeySel := ⟨6, 5⟩ }
    ⟨0, 0, 0, 0, 0, 0xAC, 0x37, 0⟩)) = some (.bankkey 0x37AC) := by decide
/-- V-AFF-13. -/
theorem test_affdec_kernel_gives_constant : outputsOf (exec .affdec (under .affine
    { Inputs.zero with key := 0x1234, x := 0x40 })) = some (.affdec (some 34) .unmappedIndex) := by decide
/-- V-AFF-8. -/
theorem test_affdec_product : outputsOf (exec .affdec (under .affine
    { Inputs.zero with key := 0xAC37, x := 0x2A })) = some (.affdec (some 31) .ok) := by decide
/-- V-LBL-3. -/
theorem test_tonelbl_last : outputsOf (exec .tonelbl (under .extractor
    { Inputs.zero with idx := 33, idxValid := true, supOk := true })) = some (.tonelbl 33) := by decide
/-- V-LBL-8. -/
theorem test_tonelbl_no_index : outputsOf (exec .tonelbl (under .extractor
    { Inputs.zero with idx := 0, idxValid := false, supOk := false })) = some (.tonelbl 0x40) := by decide
/-- V-FOL-1. -/
theorem test_follow_substitutes : outputsOf (exec .follow (under .extractor
    { Inputs.zero with rxZero := true, flag := true, txLbl := 12 })) = some (.follow 12) := by decide
/-- V-FOL-5. -/
theorem test_follow_ignores_flag : outputsOf (exec .follow (under .extractor
    { Inputs.zero with flag := true, txLbl := 12, rxLbl := 0x40 })) = some (.follow 0x40) := by decide
/-- V-FB-2. -/
theorem test_fbase_negative : outputsOf (exec .fbase (under .extractor Inputs.zero)) =
    some (.fbase (BitVec.ofInt 32 (-10000))) := by decide
/-- V-FB-7. -/
theorem test_fbase_face_value : outputsOf (exec .fbase (under .extractor
    { Inputs.zero with p := 0x2A, q := 0x0F })) = some (.fbase 20150) := by decide
/-- V-TXF-3. -/
theorem test_txfreq_negative_delta : outputsOf (exec .txfreq (under .extractor
    { Inputs.zero with a0 := 0xF5, a1 := 0x50, a2 := 0x00 })) = some (.txfreq 145480 true) := by decide
/-- V-TXF-7. -/
theorem test_txfreq_fallback : outputsOf (exec .txfreq (under .extractor
    { Inputs.zero with a0 := 0xF5, a1 := 0x52, a2 := 0xAF })) = some (.txfreq 145685 false) := by decide
/-- V-RXF-3. -/
theorem test_rxfreq_table_first : outputsOf (exec .rxfreq (under .extractor
    { Inputs.zero with b0 := 0x21, b1 := 0x52, b2 := 0xE5, txf := 5555 })) = some (.rxfreq 11550 true) := by decide
/-- V-RXF-4. -/
theorem test_rxfreq_split : outputsOf (exec .rxfreq (under .extractor
    { Inputs.zero with b0 := 0x21, b1 := 0x52, b2 := 0xE4, txf := 5555 })) = some (.rxfreq 12520 false) := by decide
/-- P3. -/
theorem test_decode_unknown_bank : outputsOf (exec .decode (underConfig (.cfgT .affine) recP3)) =
    some (.decode ⟨11525, 12000, 0, 0x40, .unknownBank⟩) := by decide
/-- P4. -/
theorem test_decode_follow_affine : outputsOf (exec .decode (underConfig (.cfgT .affine) recP4)) =
    some (.decode ⟨145480, 145480, 17, 17, .ok⟩) := by decide

/-! ### The record port, the text of a line, and the stops (30_encoding.md R88, R89; 95_test_vectors.md P1, P6) -/

theorem test_record_word : recP4.word = 0xF550002200123481 := by decide
/-- P1, line 1, with the optional `_`. -/
theorem test_read_record_line : readLine "t = TXIDX rec=0xF5520000_00000083".toList =
    .ok ⟨"t", .txidx, [.record recP1.bytes]⟩ := by decide
/-- P1, line 3. -/
theorem test_read_reference_line : readLine "tl = TONELBL t.TXI, 0x1, 0x1".toList =
    .ok ⟨"tl", .tonelbl, [.result "t" (some .txi), .literal 1, .literal 1]⟩ := by decide
/-- P1, line 5, as written there. -/
theorem test_write_line : (Line.mk "fl" .follow
    [.literal 1, .literal 1, .result "tl" none, .result "rl" none]).write = "fl = FOLLOW 0x1, 0x1, tl, rl".toList := by
  decide
theorem test_read_fifteen_digits : readLine "t = TXIDX rec=0xF552000000000083F".toList = .error .badOperand := by decide
/-- P6: a line before the load. -/
theorem test_before_load_refused : stopOf (step { State.reset with pending :=
    [.evaluate 0x0 "t" [.record recP1.bytes]] }) = some (.inr .notInitialised) := by decide
/-- P6: a line with OPSEL 0xA. -/
theorem test_opsel_0xA_refused : stopOf (step { under .extractor Inputs.zero with pending :=
    [.evaluate 0xA "t" []] }) = some (.inr (.noSuchOperation 0xA)) := by decide
/-- P6: DECODE on the 7-byte record F5 52 00 00 00 00 00. -/
theorem test_seven_bytes_fault : stopOf (exec .decode (under .extractor
    { Inputs.zero with record := [0xF5, 0x52, 0, 0, 0, 0, 0] })) = some (.inl .malformedInput) := by decide
/-- The same line as a step: the failure is recorded, there are no outputs (60_exceptions.md R232), and the next line is
still there (R250). -/
theorem test_seven_bytes_recorded : ∃ t, step { under .extractor Inputs.zero with pending :=
      [.evaluate 0x9 "d" [.record [0xF5, 0x52, 0, 0, 0, 0, 0]], .evaluate 0x6 "f" [.literal 0x21, .literal 0]] } = .next t ∧
    t.results = [("d", .failed .malformedInput)] ∧ t.outputs = none ∧
    t.pending = [.evaluate 0x6 "f" [.literal 0x21, .literal 0]] := ⟨_, rfl, rfl, rfl, rfl⟩
/-- P6: loading CFG-T with C = 5 in place of MB's C. -/
theorem test_forbidden_constant_refused : stopOf (step { State.reset with pending :=
    [.load { Configuration.cfgT .affine with bankRegistry := [(0x1234, { AffineModel.exampleMB with c := 5 })] }] }) =
    some (.inr .illegalConfiguration) := by decide

/-! ### Well-formedness: a good line, and one ill-formed line for each check -/

theorem test_wf_good : (Line.mk "k" .affdec [.literal 0xAC37, .result "r" none]).wellFormed = true := by decide
theorem test_wf_dest : (Line.mk "1k" .affdec [.literal 0, .literal 0]).wellFormed = false := by decide
theorem test_wf_empty_dest : (Line.mk "" .affdec [.literal 0, .literal 0]).wellFormed = false := by decide
theorem test_wf_count : (Line.mk "k" .affdec [.literal 0]).wellFormed = false := by decide
theorem test_wf_width : (Line.mk "k" .affdec [.literal 0x10000, .literal 0]).wellFormed = false := by decide
theorem test_wf_record_width : (Line.mk "k" .decode [.literal 0x10000000000000000]).wellFormed = false := by decide
theorem test_wf_record_length : (Line.mk "k" .decode [.record [0, 0, 0, 0, 0, 0, 0]]).wellFormed = false := by decide
theorem test_wf_record_on_bits : (Line.mk "k" .fbase [.record recP1.bytes, .literal 0]).wellFormed = false := by decide
theorem test_wf_reference : (Line.mk "k" .decode [.result "a b" none]).wellFormed = false := by decide

/-! ### Legality: CFG-T, and one illegal configuration for each constraint (93_implementation_defined.md I3;
10_state.md R39, 41_affine_decoder.md R129) -/

theorem test_legal_cfgT : (Configuration.cfgT .affine).legal = true := by decide +kernel
theorem test_legal_cfgT_extractor : (Configuration.cfgT .extractor).legal = true := by decide +kernel
/-- 10_state.md R39: CFG-T without the key (0xAC,0x37). -/
theorem test_legal_known_bank : ({ Configuration.cfgT .affine with bankRegistry := [(0x1234, .exampleMB)] } :
    Configuration).legal = false := by decide
/-- 41_affine_decoder.md R129 (b): MA with its row 4 zero has rank 5 and reaches no index 16..31. -/
theorem test_legal_rank : ({ AffineModel.exampleMA with m := #v[0x03, 0x06, 0x0C, 0x18, 0x00, 0x40] } :
    AffineModel).solvesTones = false := by decide +kernel
theorem test_legal_label_zero : ({ Configuration.cfgT .affine with
    toneLabels := (Configuration.cfgT .affine).toneLabels.set 0 "0.0" } : Configuration).legal = false := by decide
theorem test_legal_label_form : ({ Configuration.cfgT .affine with
    toneLabels := (Configuration.cfgT .affine).toneLabels.set 33 "67" } : Configuration).legal = false := by decide
theorem test_legal_registry : ({ Configuration.cfgT .affine with
    bankRegistry := [(1, .exampleMA), (1, .exampleMB)] } : Configuration).legal = false := by decide
theorem test_legal_sup_zero : ({ AffineModel.exampleMA with sup := 2 } : AffineModel).legal = false := by decide
theorem test_legal_sup_high : ({ AffineModel.exampleMA with sup := 0x400000001 } : AffineModel).legal = false := by decide
theorem test_legal_constant : ({ AffineModel.exampleMA with c := 33 } : AffineModel).legal = false := by decide
theorem test_legal_delta_bound : deltasLegal [(1, -1000001)] = false ∧ deltasLegal [(1, -1000000)] = true := by decide
theorem test_legal_delta_map : deltasLegal [(1, 2), (1, 3)] = false := by decide

/-! ### Witnesses: a state that meets the hypotheses of each statement -/

/-- The hypotheses of TxidxResult, RxidxResult, BankkeyResult, EveryRecordValueIsLegal, EveryIndexPairIsReached,
DecodeIsTheNetworkOfTheUnits and DecodeIsPure. -/
def Presented (s : State) (c : Configuration) (r : Record) : Prop := s.config = some c ∧ s.inputs.record = r.bytes

theorem witness_TxidxResult : Presented (underConfig (.cfgT .extractor) recP1) (.cfgT .extractor) recP1 := ⟨rfl, rfl⟩
theorem witness_RxidxResult : Presented (underConfig (.cfgT .extractor) recP5) (.cfgT .extractor) recP5 := ⟨rfl, rfl⟩
theorem witness_EveryRecordValueIsLegal :
    Presented (underConfig (.cfgT .affine) recP4) (.cfgT .affine) recP4 ∧ recP4.word = 0xF550002200123481 ∧
    stopOf (exec .decode (under .affine { Inputs.zero with record := [] })) = some (.inl .malformedInput) :=
  ⟨⟨rfl, rfl⟩, by decide, by decide⟩
theorem witness_EveryIndexPairIsReached :
    Presented (underConfig (.cfgT .affine) recP4) (.cfgT .affine) recP4 := ⟨rfl, rfl⟩
theorem witness_BankkeyResult : Presented (underConfig (.cfgT .affine) recP4) (.cfgT .affine) recP4 ∧
    (Configuration.cfgT .affine).rxBankKeySel = ⟨5, 6⟩ := ⟨⟨rfl, rfl⟩, rfl⟩
theorem witness_DecodeIsTheNetworkOfTheUnits :
    Presented (underConfig (.cfgT .extractor) recP1) (.cfgT .extractor) recP1 ∧
    Presented (underConfig (.cfgT .affine) recP3) (.cfgT .affine) recP3 ∧
    Presented (underConfig (.cfgT .affine) recP4) (.cfgT .affine) recP4 := ⟨⟨rfl, rfl⟩, ⟨rfl, rfl⟩, ⟨rfl, rfl⟩⟩
theorem witness_DecodeIsPure : Presented (underConfig (.cfgT .affine) recP3) (.cfgT .affine) recP3 ∧
    Presented { underConfig (.cfgT .affine) recP3 with draws := 7 } (.cfgT .affine) recP3 := ⟨⟨rfl, rfl⟩, ⟨rfl, rfl⟩⟩
theorem witness_RecordPortNumbering : 0 < 8 ∧ 7 < 8 := by decide
theorem witness_ReadingAWrittenLineGivesItBack : (Line.mk "d" .decode [.record recP1.bytes]).wellFormed = true := by decide
theorem witness_OpselCodesDecode : 10 ≤ (0xA : BitVec 4).toNat ∧ 10 ≤ (0xF : BitVec 4).toNat := by decide
theorem witness_DecodeAndEncodeAgree : decode 0x9 = .ok .decode := by decide

/-- Two records that agree on the six TX bits and differ elsewhere, and two that agree on the six RX bits. -/
theorem witness_ExtractorIndependence :
    Presented (underConfig (.cfgT .extractor) recP1) (.cfgT .extractor) recP1 ∧
    Presented (underConfig (.cfgT .affine) { recP1 with a0 := 0, a3 := 0x30, b3 := 0x03 }) (.cfgT .affine)
      { recP1 with a0 := 0, a3 := 0x30, b3 := 0x03 } ∧
    (∀ n ∈ [28, 10, 3, 2, 1, 0],
      recP1.word.getLsbD n = ({ recP1 with a0 := 0, a3 := 0x30, b3 := 0x03 } : Record).word.getLsbD n) ∧
    ∀ n ∈ [38, 39, 32, 33, 34, 35],
      recP1.word.getLsbD n = ({ recP1 with a0 := 0, a3 := 0x30, b3 := 0x03 } : Record).word.getLsbD n :=
  ⟨⟨rfl, rfl⟩, ⟨rfl, rfl⟩, by decide, by decide⟩

/-- CFG-T with a registered key and the byte x on the ports. -/
def bankState (key : Key) (x : Byte) : State := under .affine { Inputs.zero with key := key, x := x }

theorem witness_AffdecProduct : (bankState 0x1234 0x40).config = some (.cfgT .affine) ∧
    lookup (Configuration.cfgT .affine).bankRegistry (bankState 0x1234 0x40).inputs.key = some .exampleMB ∧
    (bankState 0x1234 0x40).inputs.x ≠ 0 := ⟨rfl, by decide, by decide⟩
theorem witness_AffdecZeroInput : (bankState 0x1234 0).config = some (.cfgT .affine) ∧
    lookup (Configuration.cfgT .affine).bankRegistry (bankState 0x1234 0).inputs.key = some .exampleMB ∧
    (bankState 0x1234 0).inputs.x = 0 := ⟨rfl, by decide, by decide⟩
theorem witness_AffdecUnknownBank : (bankState 0x0000 0).config = some (.cfgT .affine) ∧
    ∀ m, ((bankState 0x0000 0).inputs.key, m) ∉ (Configuration.cfgT .affine).bankRegistry := by
  refine ⟨rfl, fun m h => ?_⟩
  simp [bankState, under, Configuration.cfgT] at h
/-- An index inside the range (33), one outside (34), and the zero case. -/
theorem witness_AffdecRangeCheck : (Configuration.cfgT .affine).legal = true ∧
    outputsOf (exec .affdec (bankState 0x1234 0x03)) = some (.affdec (some 33) .ok) ∧
    outputsOf (exec .affdec (bankState 0x1234 0x40)) = some (.affdec (some 34) .unmappedIndex) ∧
    lookup (Configuration.cfgT .affine).bankRegistry (bankState 0x1234 0x40).inputs.key = some .exampleMB := by
  refine ⟨test_legal_cfgT, by decide, by decide, by decide⟩
theorem witness_AffineLaw : (0x01 : Byte) ≠ 0 ∧ (0x02 : Byte) ≠ 0 ∧ (0x01 : Byte) ^^^ 0x02 ≠ 0 := by decide

/-- CFG-T with one more bank. -/
def withBank (key : Key) (m : AffineModel) : Configuration :=
  { Configuration.cfgT .affine with bankRegistry := (key, m) :: (Configuration.cfgT .affine).bankRegistry }

/-- V-AFF-7: the permutation model at key 0, x = A3 = 0x45. -/
theorem witness_RxidxIsAnAffineDecode :
    let m : AffineModel := { m := #v[0x08, 0x04, 0x02, 0x01, 0x80, 0x40], c := 0 }
    let r : Record := ⟨0, 0, 0, 0x45, 0, 0, 0, 0⟩
    let s : State := { under .affine { Inputs.zero with record := r.bytes, x := r.a3 } with config := some (withBank 0 m) }
    Presented s (withBank 0 m) r ∧ lookup (withBank 0 m).bankRegistry s.inputs.key = some m ∧ s.inputs.x = r.a3 :=
  ⟨⟨rfl, rfl⟩, by decide, rfl⟩
theorem witness_ForbiddenConstantBreaksRoundTrip :
    let m : AffineModel := { AffineModel.exampleMB with c := 33 }
    let s : State := { bankState 0 0 with config := some (withBank 0 m) }
    s.config = some (withBank 0 m) ∧ lookup (withBank 0 m).bankRegistry s.inputs.key = some m ∧ s.inputs.x = 0 ∧
      1 ≤ m.c.toNat ∧ m.c.toNat ≤ 33 := ⟨rfl, by decide, rfl, by decide, by decide⟩
theorem witness_ConformingBankDecodesBack : (bankState 0xAC37 0).config = some (.cfgT .affine) ∧
    (Configuration.cfgT .affine).legal = true ∧ (bankState 0xAC37 0).inputs.key = 0xAC37 ∧
    1 ≤ (31 : RawIndex).toNat ∧ (31 : RawIndex).toNat ≤ 31 :=
  ⟨rfl, test_legal_cfgT, rfl, by decide, by decide⟩

/-- The boundary of each clause: no index, unsupported, 34, and 33. -/
theorem witness_TonelblResult :
    (under .extractor { Inputs.zero with idx := 5, idxValid := false, supOk := true }).inputs.idxValid = false ∧
    (under .extractor { Inputs.zero with idx := 5, idxValid := true, supOk := false }).inputs.supOk = false ∧
    34 ≤ (under .extractor { Inputs.zero with idx := 34, idxValid := true, supOk := true }).inputs.idx.toNat ∧
    (under .extractor { Inputs.zero with idx := 33, idxValid := true, supOk := true }).inputs.idx.toNat ≤ 33 ∧
    (under .extractor Inputs.zero).config = some (.cfgT .extractor) := by decide
theorem witness_LabelTextOfEachCode : (Configuration.cfgT .affine).legal = true ∧ ¬ labelDriven 34 ∧ ¬ labelDriven 0x41 := by
  refine ⟨test_legal_cfgT, by simp [labelDriven, unknownLabel], by simp [labelDriven, unknownLabel]⟩
theorem cfgT_labels_distinct : ∀ i j : Fin 34, Configuration.symbolicLabel i = Configuration.symbolicLabel j → i = j := by
  decide
theorem witness_LabelEqualityIsCodeEquality : (Configuration.cfgT .affine).labelsDistinct ∧
    (∀ i : Fin 34, (Configuration.cfgT .affine).toneLabels[i] ≠ "unknown") ∧ labelDriven 33 ∧ labelDriven unknownLabel := by
  refine ⟨fun i j h => cfgT_labels_distinct i j ?_, by decide, .inl (by decide), .inr rfl⟩
  simpa [Configuration.cfgT] using h
theorem witness_FollowResult :
    let s := under .extractor { Inputs.zero with rxZero := true, flag := true, txLbl := 12 }
    let t := under .extractor { Inputs.zero with rxZero := false, flag := true, txLbl := 12 }
    let u := under .extractor { Inputs.zero with rxZero := true, flag := false, txLbl := 12 }
    s.config = some (.cfgT .extractor) ∧ (s.inputs.rxZero = true ∧ s.inputs.flag = true) ∧ t.inputs.rxZero = false ∧
      u.inputs.flag = false := ⟨rfl, ⟨rfl, rfl⟩, rfl, rfl⟩
theorem witness_FbaseResult : (under .extractor { Inputs.zero with p := 0xFF, q := 0xFF }).config =
    some (.cfgT .extractor) := rfl
theorem witness_FbaseIsTheExactDecimal : (under .extractor { Inputs.zero with p := 0x21 }).config =
    some (.cfgT .extractor) ∧ ∃ mhz : ℚ, mhz = ((0x21 / 16 : Nat) - 1 : ℚ) * 10 + (0x21 % 16 : Nat) + 0 / 10 + 0 / 100 :=
  ⟨rfl, _, rfl⟩

/-- A hit (0x5000) and a miss (0x52AF). -/
theorem witness_TxfreqResult : (Configuration.cfgT .affine).legal = true ∧
    (0x5000 : Key).toNat = 256 * (0x50 : Byte).toNat + (0x00 : Byte).toNat ∧
    ((0x5000 : Key), (-20 : Int)) ∈ (Configuration.cfgT .affine).txDelta ∧
    (0x52AF : Key).toNat = 256 * (0x52 : Byte).toNat + (0xAF : Byte).toNat ∧
    ∀ v : Int, ((0x52AF : Key), v) ∉ (Configuration.cfgT .affine).txDelta := by
  refine ⟨test_legal_cfgT, by decide, by decide, by decide, fun v h => ?_⟩
  simp [Configuration.cfgT] at h
/-- A hit (0x52E5), a split miss (0x52E4) and a simplex miss (0x52D0). -/
theorem witness_RxfreqResult : (Configuration.cfgT .affine).legal = true ∧
    ((0x52E5 : Key), (30 : Int)) ∈ (Configuration.cfgT .affine).rxDelta ∧
    (∀ v : Int, ((0x52E4 : Key), v) ∉ (Configuration.cfgT .affine).rxDelta) ∧
    (∀ v : Int, ((0x52D0 : Key), v) ∉ (Configuration.cfgT .affine).rxDelta) ∧
    (0xE4 : Byte).toNat / 16 = 14 ∧ (0xD0 : Byte).toNat / 16 ≠ 14 ∧
    (0x52E5 : Key).toNat = 256 * (0x52 : Byte).toNat + (0xE5 : Byte).toNat := by
  refine ⟨test_legal_cfgT, by decide, fun v h => ?_, fun v h => ?_, by decide, by decide, by decide⟩ <;>
    simp [Configuration.cfgT] at h
theorem witness_FrequencyOutputsInRange :
    (under .extractor { Inputs.zero with b2 := 0xE0 }).config = some (.cfgT .extractor) ∧
    (Configuration.cfgT .extractor).legal = true ∧
    outputsOf (exec .txfreq (under .extractor Inputs.zero)) = some (.txfreq (BitVec.ofInt 32 (-10000)) false) ∧
    outputsOf (exec .rxfreq (under .extractor { Inputs.zero with b2 := 0xE0 })) =
      some (.rxfreq (BitVec.ofInt 32 (-9000)) false) ∧
    outputsOf (exec .decode (under .extractor Inputs.zero)) =
      some (.decode ⟨BitVec.ofInt 32 (-10000), BitVec.ofInt 32 (-10000), 0, 0, .ok⟩) := by
  refine ⟨rfl, test_legal_cfgT_extractor, by decide, by decide, by decide⟩
theorem witness_ExampleKeyCoincidence :
    lookup (Configuration.cfgT .extractor).txDelta 0x47A4 = some 55 ∧
    lookup ({ Configuration.cfgT .extractor with txDelta := [] } : Configuration).txDelta 0x47A4 = none ∧
    (under .extractor { Inputs.zero with a0 := 0x21, a1 := 0x47, a2 := 0xA4 }).inputs.a2 = 0xA4 := by decide

theorem witness_UnknownBankLeavesOtherOutputsValid :
    Presented (underConfig (.cfgT .affine) recP3) (.cfgT .affine) recP3 ∧
    (underConfig (.cfgT .extractor) recP3).config = some { Configuration.cfgT .affine with rxPath := .extractor } ∧
    (Configuration.cfgT .affine).rxPath = .affine ∧
    lookup (Configuration.cfgT .affine).bankRegistry
      (packKey (recP3.byte (Configuration.cfgT .affine).rxBankKeySel.first)
        (recP3.byte (Configuration.cfgT .affine).rxBankKeySel.second)) = none := ⟨⟨rfl, rfl⟩, rfl, rfl, by decide⟩
theorem witness_FrequenciesIgnoreToneConfiguration :
    Presented (underConfig (.cfgT .affine) recP3) (.cfgT .affine) recP3 ∧
    Presented (underConfig (.cfgT .extractor) recP3) (.cfgT .extractor) recP3 ∧
    (Configuration.cfgT .affine).txDelta = (Configuration.cfgT .extractor).txDelta ∧
    (Configuration.cfgT .affine).rxDelta = (Configuration.cfgT .extractor).rxDelta := ⟨⟨rfl, rfl⟩, ⟨rfl, rfl⟩, rfl, rfl⟩
/-- The six bits 0 (P1, and A3 = 0x30), and one of them 1 (P5). -/
theorem witness_FollowOnTheExtractorPath :
    Presented (underConfig (.cfgT .extractor) recP1) (.cfgT .extractor) recP1 ∧
    (Configuration.cfgT .extractor).rxPath = .extractor ∧ recP1.a3 &&& 0xCF = 0 ∧ (0x30 : Byte) &&& 0xCF = 0 ∧
    recP5.a3 &&& 0xCF ≠ 0 := ⟨⟨rfl, rfl⟩, rfl, by decide, by decide, by decide⟩

theorem witness_EvaluationFrame : ∃ t, exec .decode (underConfig (.cfgT .affine) recP3) = .next t := ⟨_, rfl⟩
theorem witness_EqualInputsGiveEqualOutcomes :
    (underConfig (.cfgT .affine) recP3).config = { underConfig (.cfgT .affine) recP3 with draws := 7 }.config ∧
    (underConfig (.cfgT .affine) recP3).inputs = { underConfig (.cfgT .affine) recP3 with draws := 7 }.inputs := ⟨rfl, rfl⟩

/-- The host's load of CFG-T, from reset. -/
def loading : State := { State.reset with pending := [.load (.cfgT .affine)] }
/-- One evaluation of P3's record under CFG-T. -/
def decoding : State := { under .affine Inputs.zero with pending := [.evaluate 0x9 "d" [.record recP3.bytes]] }

theorem witness_ConfigurationIsWrittenOnce :
    (∃ s', step loading = .next s' ∧ s'.config = some (.cfgT .affine)) ∧ loading.config = none ∧
    (∃ s', step decoding = .next s') ∧ decoding.config = some (.cfgT .affine) :=
  ⟨⟨{ State.reset with config := some (.cfgT .affine) }, by simp [step, serve, loadConfiguration, loading, State.reset,
    test_legal_cfgT], rfl⟩, rfl, ⟨_, rfl⟩, rfl⟩
theorem witness_LoadIsOnceAndLegal : loading.pending = [.load (.cfgT .affine)] ∧ loading.config = none ∧
    (Configuration.cfgT .affine).legal = true ∧
    (withBank 0 { AffineModel.exampleMB with c := 5 }).legal = false ∧ decoding.config ≠ none :=
  ⟨rfl, rfl, test_legal_cfgT, by decide, by simp [decoding, under]⟩
theorem witness_LookupIsExact : lookup [((1 : Key), 'a'), (2, 'b')] 2 = some 'b' ∧
    ∀ (k : Key) (v v' : Char), (k, v) ∈ [((1 : Key), 'a'), (2, 'b')] → (k, v') ∈ [((1 : Key), 'a'), (2, 'b')] → v = v' := by
  refine ⟨by decide, fun k v v' h h' => ?_⟩
  simp only [List.mem_cons, List.not_mem_nil, or_false, Prod.mk.injEq] at h h'
  rcases h with ⟨rfl, rfl⟩ | ⟨rfl, rfl⟩ <;> simpa [eq_comm] using h'
theorem witness_EvaluationBeforeLoadIsRefused : ({ State.reset with pending := decoding.pending } : State).config = none ∧
    decoding.pending = [.evaluate 0x9 "d" [.record recP3.bytes]] := ⟨rfl, rfl⟩
/-- Lengths 7 and 9. -/
theorem witness_MalformedExactlyWhenLengthIsWrong :
    stopOf (exec .txidx (under .affine { Inputs.zero with record := List.replicate 7 0 })) = some (.inl .malformedInput) ∧
    stopOf (exec .decode (under .affine { Inputs.zero with record := List.replicate 9 0 })) =
      some (.inl .malformedInput) := by decide
theorem witness_StepRunsTheDecodedOperation :
    (∃ t, present .decode [.record recP3.bytes] { decoding with pending := [] } = .ok t ∧
      ∃ u, exec .decode t = .next u) ∧ decode 0x9 = .ok .decode ∧
    ∃ t, present .decode [.record []] { decoding with pending := [] } = .ok t ∧ exec .decode t = .fault .malformedInput :=
  ⟨⟨_, rfl, _, rfl⟩, rfl, _, rfl, rfl⟩
theorem witness_UnknownOpselIsRefused : ({ State.reset with pending := [.evaluate 0xA "t" []] } : State).pending =
    [.evaluate 0xA "t" []] ∧ 10 ≤ (0xA : BitVec 4).toNat ∧ 10 ≤ (0xF : BitVec 4).toNat := ⟨rfl, by decide, by decide⟩
/-- The largest literal of each port. -/
theorem witness_LiteralOperandsReachTheirPorts : 0xFFFF < 2 ^ 16 ∧ 0xFF < 2 ^ 8 ∧ 0x3F < 2 ^ 6 ∧ 1 < 2 ∧ 0x7F < 2 ^ 7 ∧
    0xFFFFFFFF < 2 ^ 32 ∧ (⟨0xFF, 0, 0, 0, 0, 0, 0, 0xFE⟩ : Record).word.toNat = 0xFF000000000000FE := by decide
/-- The results of lines 1 to 6 of P1 (95_test_vectors.md), and an AFFDEC that found no bank. -/
def resultsP1 : List (String × EvalResult) :=
  [("ad", .driven (.affdec none .unknownBank)), ("tf", .driven (.txfreq 145520 false)), ("rl", .driven (.tonelbl 0)),
   ("tl", .driven (.tonelbl 3)), ("t", .driven (.txidx 3))]
/-- Lines 3, 5, 7 and 8 of P1, with the literal of line 8 as it is written there, and a line on the IDX wires. -/
def linesP1 : List Line :=
  [⟨"tl", .tonelbl, [.result "t" (some .txi), .literal 1, .literal 1]⟩,
   ⟨"fl", .follow, [.literal 1, .literal 1, .result "tl" none, .result "rl" none]⟩,
   ⟨"rf", .rxfreq, [.literal 0, .literal 0, .literal 0, .result "tf" (some .f)]⟩,
   ⟨"d", .decode, [.literal 0xF552000000000083]⟩,
   ⟨"u", .tonelbl, [.result "ad" (some .idx), .literal 0, .literal 0]⟩]
theorem witness_WellFormedLineCompletes : decoding.config = some (.cfgT .affine) ∧
    decoding.pending = [(Line.mk "d" .decode [.record recP3.bytes]).request] ∧
    ∀ l ∈ ⟨"d", .decode, [.record recP3.bytes]⟩ :: linesP1, l.wellFormed = true ∧ lineReady resultsP1 l = true :=
  ⟨rfl, rfl, by decide⟩
theorem witness_ReferenceActsAsItsValue :
    asLiteral resultsP1 (.result "t" (some .txi)) = .literal 3 := by decide
theorem witness_LaterLineUsesEarlierResult : ∃ t o, step { decoding with pending :=
      [.evaluate 0x0 "t" [.record recP1.bytes]] } = .next t ∧ t.outputs = some o ∧ o.read .txi = some (.bits 3) ∧
      o.solePort = some .txi := ⟨_, _, rfl, rfl, rfl, rfl⟩
/-- IDX wires without a value, SUPOK 0 and 1. -/
theorem witness_NoIndexMeansNoLabel :
    findResult [("a", .driven (.affdec none .unknownBank))] "a" = some (.affdec none .unknownBank) ∧ 0 < 2 ∧ 1 < 2 ∧
    (under .affine Inputs.zero).config = some (.cfgT .affine) := by decide
/-- Two that complete, one with a reference, and one that fails before one that completes. -/
theorem witness_EvaluationsCommute :
    (∃ t, Host.Core.run Sys2Proof.core 2 { decoding with results := resultsP1, pending :=
      [.evaluate 0x4 "tl" [.result "t" (some .txi), .literal 1, .literal 1], .evaluate 0x6 "f" [.literal 0x21, .literal 0]] } =
        .next t) ∧
    (∃ t, Host.Core.run Sys2Proof.core 2 { decoding with pending :=
      [.evaluate 0x9 "d" [.record [0, 0, 0, 0, 0, 0, 0]], .evaluate 0x6 "f" [.literal 0x21, .literal 0]] } = .next t ∧
        t.results = [("f", .driven (.fbase 11000)), ("d", .failed .malformedInput)]) ∧
    independentOf resultsP1 "f" [.result "t" (some .txi), .literal 1, .literal 1] ∧
    independentOf resultsP1 "tl" [.literal 0x21, .literal 0] := by
  refine ⟨⟨_, rfl⟩, ⟨_, rfl, rfl⟩, ?_, by simp [independentOf]⟩
  simp [independentOf, referenced, findResult, resultsP1, EvalResult.outputs, Outputs.value, Outputs.read]

theorem witness_StepKeepsTheInvariant : decoding.Inv ∧ ∃ s', step decoding = .next s' := by
  refine ⟨⟨fun c h => ?_, fun h => ?_, fun o h => ?_, fun e h => ?_⟩, _, rfl⟩
  · simp only [decoding, under, Option.some.injEq] at h
    exact h ▸ test_legal_cfgT
  · simp [decoding, under] at h
  · simp [decoding, under] at h
  · simp [decoding, under] at h
/-- The split case with any TXF, and a simplex case with TXF in the range. -/
theorem witness_HandedOnValuesStaySound : (Configuration.cfgT .extractor).legal = true ∧
    (under .extractor { Inputs.zero with b2 := 0xE0 }).config = some (.cfgT .extractor) ∧
    labelDriven 33 ∧ labelDriven 0x40 ∧ (0xE0 : Byte).toNat / 16 = 14 ∧ inFreqRange 1156650 ∧
    outputsOf (exec .rxfreq (under .extractor { Inputs.zero with b2 := 0xE0 })) =
      some (.rxfreq (BitVec.ofInt 32 (-9000)) false) := by
  refine ⟨test_legal_cfgT_extractor, rfl, .inl (by decide), .inr rfl, by decide, ⟨by decide, by decide⟩, by decide⟩
theorem witness_CompleteRecordsNeverFault : decoding.recordsComplete := by
  intro q hq
  simp only [decoding, List.mem_singleton] at hq
  subst hq
  intro bytes h
  simp only [List.mem_singleton, Operand.record.injEq] at h
  subst h
  rfl
theorem witness_StepKeepsRecordsComplete : decoding.recordsComplete ∧ ∃ s', step decoding = .next s' :=
  ⟨witness_CompleteRecordsNeverFault, _, rfl⟩

end Sys2Proof.Tests
end

