-- ==== Sys2Proof/Proofs/ConfigurationWrites.lean ====
section
/-! What a completed operation, evaluation and step leave of the state, and R25: only the host's load writes the
configuration (10_state.md section 3). -/

namespace Sys2Proof.Machine

/-- An operation with no record completes only under a loaded configuration, and then drives its outputs and nothing
else. -/
theorem withConfig_drive_next {s t : State} {out : Configuration → Outputs}
    (h : withConfig s (fun c => drive s (out c)) = .next t) :
    ∃ c o, s.config = some c ∧ t = { s with outputs := some o } := by
  obtain ⟨c, hc, hrun⟩ := withConfig_next h
  cases hrun
  exact ⟨c, out c, hc, rfl⟩

/-- `withRecord_next` without what the record is and which outputs are driven. -/
theorem withRecord_drive_next {s t : State} {out : Configuration → Record → Outputs}
    (h : withRecord s out = .next t) :
    ∃ c o, s.config = some c ∧ t = { s with outputs := some o } := by
  obtain ⟨c, r, hc, -, ht⟩ := withRecord_next h
  exact ⟨c, out c r, hc, ht⟩

/-- Everything a completed operation can do: a configuration is loaded, and the output ports are driven and nothing
else is written. -/
theorem exec_next {i : Instr} {s t : State} (h : exec i s = .next t) :
    ∃ c o, s.config = some c ∧ t = { s with outputs := some o } := by
  cases i with
  | txidx   => exact withRecord_drive_next h
  | rxidx   => exact withRecord_drive_next h
  | bankkey => exact withRecord_drive_next h
  | affdec  => exact withConfig_drive_next h
  | tonelbl => exact withConfig_drive_next h
  | follow  => exact withConfig_drive_next h
  | fbase   => exact withConfig_drive_next h
  | txfreq  => exact withConfig_drive_next h
  | rxfreq  => exact withConfig_drive_next h
  | decode  => exact withRecord_drive_next h

theorem exec_config {i : Instr} {s t : State} (h : exec i s = .next t) : t.config = s.config := by
  obtain ⟨_, _, -, rfl⟩ := exec_next h
  rfl

theorem present_config {i : Instr} {operands : List Operand} {s t : State} (h : present i operands s = .ok t) :
    t.config = s.config := by
  obtain ⟨_, _, _, -, -, rfl⟩ := present_ok h
  rfl

/-- An evaluation leaves the configuration, whether its outputs were read back or its failure was recorded. -/
theorem evaluate_config {opsel : BitVec 4} {dest : String} {operands : List Operand} {s t : State}
    (h : evaluate opsel dest operands s = .next t) : t.config = s.config := by
  obtain ⟨i, u, -, hpresent, ⟨v, hexec, rfl⟩ | ⟨f, -, rfl⟩⟩ := evaluate_next h
  · calc (v.readBack dest).config = v.config := v.readBack_config dest
      _ = u.config := exec_config hexec
      _ = s.config := present_config hpresent
  · exact (u.recordFailure_config dest f).trans (present_config hpresent)

/-- A step leaves the configuration, or is the host's first load and sets it. -/
theorem step_config {s t : State} (h : step s = .next t) :
    t.config = s.config ∨
      s.config = none ∧ ∃ c rest, s.pending = .load c :: rest ∧ t.config = some c := by
  obtain ⟨-, rfl⟩ | ⟨c, rest, hpending, hnone, -, rfl⟩ | ⟨_, _, _, _, -, heval⟩ := step_next h
  · exact .inl rfl
  · exact .inr ⟨hnone, c, rest, hpending, rfl⟩
  · have hsame := evaluate_config heval
    exact .inl hsame

/-- Settles O36, from the two things a step can do to the configuration. -/
theorem configurationIsWrittenOnce : Obligations.ConfigurationIsWrittenOnce := by
  intro s s' h
  obtain hsame | ⟨hnone, hload⟩ := step_config h
  · exact ⟨fun _ hc => hsame.trans hc, fun hn => .inl (hsame.trans hn)⟩
  · exact ⟨fun c hc => by simp [hnone] at hc, fun _ => .inr hload⟩

end Sys2Proof.Machine
end

