-- ==== Sys2Proof/Proofs/Lookup.lean ====
section
/-! The read of a configuration table at a key, and R55: it is exact (20_memory.md section 2). -/

namespace Sys2Proof.Machine

section
variable {α : Type} {t : List (Key × α)} {key : Key} {v : α}

@[simp] theorem lookup_nil : lookup ([] : List (Key × α)) key = none := rfl

@[simp] theorem lookup_cons_self : lookup ((key, v) :: t) key = some v := if_pos rfl

theorem lookup_cons_of_ne {k : Key} (h : k ≠ key) : lookup ((k, v) :: t) key = lookup t key := if_neg h

/-- A lookup never invents an entry. -/
theorem mem_of_lookup_eq_some (h : lookup t key = some v) : (key, v) ∈ t := by
  induction t with
  | nil => simp at h
  | cons e rest ih =>
    obtain ⟨k, w⟩ := e
    by_cases hk : k = key
    · subst hk
      obtain rfl : w = v := by simpa using h
      exact List.mem_cons_self
    · rw [lookup_cons_of_ne hk] at h
      exact List.mem_cons_of_mem _ (ih h)

theorem lookup_eq_none_iff : lookup t key = none ↔ ∀ v, (key, v) ∉ t := by
  induction t with
  | nil => simp
  | cons e rest ih =>
    obtain ⟨k, w⟩ := e
    by_cases hk : k = key
    · subst hk
      rw [lookup_cons_self]
      exact iff_of_false (Option.some_ne_none w) fun hnone => hnone w List.mem_cons_self
    · simp [lookup_cons_of_ne hk, ih, Ne.symm hk]

/-- In a partial map the entry a lookup finds is the only one of its key. -/
theorem lookup_eq_some_of_mem (hmap : ∀ k v v', (k, v) ∈ t → (k, v') ∈ t → v = v') (hmem : (key, v) ∈ t) :
    lookup t key = some v := by
  cases hfound : lookup t key with
  | none => exact absurd hmem (lookup_eq_none_iff.mp hfound v)
  | some w => rw [hmap key w v (mem_of_lookup_eq_some hfound) hmem]

end

/-- Settles O39, from the three rules of a lookup. -/
theorem lookupIsExact : Obligations.LookupIsExact := fun _ _ _ =>
  ⟨fun _ => mem_of_lookup_eq_some, lookup_eq_none_iff, fun hmap _ => lookup_eq_some_of_mem hmap⟩

end Sys2Proof.Machine
end

