-- ==== Sys2Proof/Proofs/RecordValues.lean ====
section
/-! The record of a port value, and R84: an operation rejects a record for its length only (30_encoding.md section 4). -/

namespace Sys2Proof

/-- The record whose port value is w, A0 the most significant byte (30_encoding.md R70). -/
def Record.ofWord (w : BitVec 64) : Record where
  a0 := w.extractLsb' 56 8
  a1 := w.extractLsb' 48 8
  a2 := w.extractLsb' 40 8
  a3 := w.extractLsb' 32 8
  b0 := w.extractLsb' 24 8
  b1 := w.extractLsb' 16 8
  b2 := w.extractLsb' 8 8
  b3 := w.extractLsb' 0 8

/-- Adjacent bytes of w append to one run of its bits, until the run is the whole of w. -/
@[simp] theorem Record.ofWord_word (w : BitVec 64) : (Record.ofWord w).word = w := by
  simp only [Record.word, Record.ofWord]
  iterate 7 rw [BitVec.extractLsb'_append_extractLsb'_eq_extractLsb' (len₁ := 8) rfl]
  exact BitVec.extractLsb'_eq_self

namespace Machine

/-- Before the load every operation is refused (70_reset_and_hazards.md R262). -/
theorem exec_of_config_none {s : State} (hc : s.config = none) (i : Instr) :
    exec i s = .refused .notInitialised := by
  cases i <;> exact withConfig_none hc _

/-- Under a loaded configuration, with a whole record on the port, every operation completes and drives the output
ports only. -/
theorem exec_completes {s : State} {c : Configuration} {r : Record} (hc : s.config = some c)
    (hr : s.inputs.record = r.bytes) (i : Instr) : ∃ o, exec i s = .next { s with outputs := some o } := by
  cases i with
  | txidx   => exact ⟨_, withRecord_bytes hc hr _⟩
  | rxidx   => exact ⟨_, withRecord_bytes hc hr _⟩
  | bankkey => exact ⟨_, withRecord_bytes hc hr _⟩
  | affdec  => exact ⟨_, withConfig_some hc _⟩
  | tonelbl => exact ⟨_, withConfig_some hc _⟩
  | follow  => exact ⟨_, withConfig_some hc _⟩
  | fbase   => exact ⟨_, withConfig_some hc _⟩
  | txfreq  => exact ⟨_, withConfig_some hc _⟩
  | rxfreq  => exact ⟨_, withConfig_some hc _⟩
  | decode  => exact ⟨_, withRecord_bytes hc hr _⟩

/-- An operation faults under a loaded configuration only, and only on a record that is not 8 bytes long: with 8 bytes
on the port it completes. -/
theorem exec_fault {i : Instr} {s : State} {f : Fault} (h : exec i s = .fault f) :
    (∃ c, s.config = some c) ∧ s.inputs.record.length ≠ 8 := by
  cases hc : s.config with
  | none => simp [exec_of_config_none hc] at h
  | some c =>
    refine ⟨⟨c, rfl⟩, fun hlength => ?_⟩
    obtain ⟨r, hr⟩ := Record.exists_of_length hlength
    obtain ⟨o, hnext⟩ := exec_completes hc hr i
    simp [hnext] at h

/-- Settles O5: `Record.ofWord` is the record of a port value, and completion on 8 bytes leaves only the length to
fault on. -/
theorem everyRecordValueIsLegal : Obligations.EveryRecordValueIsLegal :=
  ⟨fun w => ⟨.ofWord w, Record.ofWord_word w, fun _ _ hc hr => exec_completes hc hr⟩,
    fun _ _ _ hfault => (exec_fault hfault).2⟩

end Machine

end Sys2Proof
end

