-- ==== Sys2Proof/Proofs/Extractor.lean ====
section
/-! The Bit Index Extractor: what TXIDX and RXIDX drive, the record bits their indices are wired from, and R102, that no
other bit reaches them (40_bit_index_extractor.md). -/

namespace Sys2Proof

/-- Bit b of record byte k is REC[56-8k+b] (30_encoding.md R70): the bytes after byte k are the 56-8k bits below it. -/
theorem Record.word_getLsbD_byte (r : Record) (k : Selector) {b : Nat} (hb : b < 8) :
    r.word.getLsbD (56 - 8 * k.toNat + b) = (r.byte k).getLsbD b := by
  simp only [Record.word, BitVec.getLsbD_append]
  obtain ⟨n, hn⟩ := k
  interval_cases n <;>
    simp (disch := omega) only [Record.byte, BitVec.toNat_ofFin, if_pos, if_neg, Nat.sub_sub, Nat.reduceMul,
      Nat.reduceSub, Nat.reduceAdd, Nat.add_sub_cancel_left, Nat.zero_add]

namespace Machine

section
variable {s : State} {c : Configuration} {r : Record}

theorem exec_txidx (hc : s.config = some c) (hr : s.inputs.record = r.bytes) :
    exec .txidx s = .next { s with outputs := some (.txidx (txIndex r)) } := withRecord_bytes hc hr _

theorem exec_rxidx (hc : s.config = some c) (hr : s.inputs.record = r.bytes) :
    exec .rxidx s = .next { s with outputs := some (.rxidx (rxIndex r)) } := withRecord_bytes hc hr _

end

/-- The TX wiring on the port REC (30_encoding.md R73). -/
theorem txIndex_eq_word (r : Record) : txIndex r =
    index6 (r.word.getLsbD 28) (r.word.getLsbD 10) (r.word.getLsbD 3) (r.word.getLsbD 2) (r.word.getLsbD 1)
      (r.word.getLsbD 0) := by
  have hb0 : r.b0.getLsbD 4 = r.word.getLsbD 28 := (r.word_getLsbD_byte 4 (by decide)).symm
  have hb2 : r.b2.getLsbD 2 = r.word.getLsbD 10 := (r.word_getLsbD_byte 6 (by decide)).symm
  have hb3 {b : Nat} (hb : b < 8) : r.b3.getLsbD b = r.word.getLsbD (0 + b) := (r.word_getLsbD_byte 7 hb).symm
  simp only [txIndex, hb0, hb2, hb3, Nat.reduceLT, Nat.reduceAdd]

/-- The RX wiring on the port REC (30_encoding.md R73). -/
theorem rxIndex_eq_word (r : Record) : rxIndex r =
    index6 (r.word.getLsbD 38) (r.word.getLsbD 39) (r.word.getLsbD 32) (r.word.getLsbD 33) (r.word.getLsbD 34)
      (r.word.getLsbD 35) := by
  have ha3 {b : Nat} (hb : b < 8) : r.a3.getLsbD b = r.word.getLsbD (32 + b) := (r.word_getLsbD_byte 3 hb).symm
  simp only [rxIndex, ha3, Nat.reduceLT, Nat.reduceAdd]

/-- Settles O6: the bits of an assembled index on the byte form of the TX wiring, its weights on the port form. -/
theorem txidxResult : Obligations.TxidxResult := by
  refine ⟨rfl, fun s c r hc hr => ⟨txIndex r, exec_txidx hc hr, ?_⟩⟩
  obtain ⟨h5, h4, h3, h2, h1, h0⟩ := index6_bits (r.b0.getLsbD 4) (r.b2.getLsbD 2) (r.b3.getLsbD 3) (r.b3.getLsbD 2)
    (r.b3.getLsbD 1) (r.b3.getLsbD 0)
  exact ⟨h5, h4, h3, h2, h1, h0, by rw [txIndex_eq_word, index6_toNat]⟩

/-- Settles O7: the bits of an assembled index on the byte form of the RX wiring, its weights on the port form. -/
theorem rxidxResult : Obligations.RxidxResult := by
  refine ⟨rfl, fun s c r hc hr => ⟨rxIndex r, exec_rxidx hc hr, ?_⟩⟩
  obtain ⟨h5, h4, h3, h2, h1, h0⟩ := index6_bits (r.a3.getLsbD 6) (r.a3.getLsbD 7) (r.a3.getLsbD 0) (r.a3.getLsbD 1)
    (r.a3.getLsbD 2) (r.a3.getLsbD 3)
  exact ⟨h5, h4, h3, h2, h1, h0, by rw [rxIndex_eq_word, index6_toNat]⟩

section
variable {r r' : Record}

/-- TXI is a function of the six record bits of R100. -/
theorem txIndex_congr (h : ∀ n ∈ [28, 10, 3, 2, 1, 0], r.word.getLsbD n = r'.word.getLsbD n) :
    txIndex r = txIndex r' := by
  simp only [List.forall_mem_cons] at h
  obtain ⟨h28, h10, h3, h2, h1, h0, -⟩ := h
  rw [txIndex_eq_word, txIndex_eq_word, h28, h10, h3, h2, h1, h0]

/-- RXI is a function of the six record bits of R101. -/
theorem rxIndex_congr (h : ∀ n ∈ [38, 39, 32, 33, 34, 35], r.word.getLsbD n = r'.word.getLsbD n) :
    rxIndex r = rxIndex r' := by
  simp only [List.forall_mem_cons] at h
  obtain ⟨h38, h39, h32, h33, h34, h35, -⟩ := h
  rw [rxIndex_eq_word, rxIndex_eq_word, h38, h39, h32, h33, h34, h35]

end

/-- Settles O8: each index is a function of its six bits, and no state or configuration enters it. -/
theorem extractorIndependence : Obligations.ExtractorIndependence := by
  intro s s' c c' r r' hc hc' hr hr'
  constructor
  · intro hbits
    exact ⟨txIndex r, exec_txidx hc hr, txIndex_congr hbits ▸ exec_txidx hc' hr'⟩
  · intro hbits
    exact ⟨rxIndex r, exec_rxidx hc hr, rxIndex_congr hbits ▸ exec_rxidx hc' hr'⟩

end Machine

end Sys2Proof
end

