-- ==== Sys2Proof/Proofs/AffineDecoder.lean ====
section
/-! The Affine GF(2) Decoder under a registered key: R122, the product bit by bit, and R123, its special case at x = 0
(41_affine_decoder.md section 2). -/

namespace Sys2Proof.Machine

section
variable {registry : List (Key × AffineModel)} {key : Key} {x : Byte} {m : AffineModel}

/-- The zero special case stands before the product (41_affine_decoder.md R125). -/
theorem affineDecode_zero (hm : lookup registry key = some m) : affineDecode registry key 0 = (some 0, .ok) := by
  simp [affineDecode, hm]

theorem affineDecode_of_ne_zero (hm : lookup registry key = some m) (hx : x ≠ 0) :
    affineDecode registry key x = (some (affine m x), bankStatus m.sup (affine m x)) := by
  simp only [affineDecode, hm, if_neg hx]

end

/-- AFFDEC drives what the decoder makes of its two input ports. -/
theorem exec_affdec {s : State} {c : Configuration} {idx : Option RawIndex} {st : Status} (hc : s.config = some c)
    (hdecode : affineDecode c.bankRegistry s.inputs.key s.inputs.x = (idx, st)) :
    exec .affdec s = .next { s with outputs := some (.affdec idx st) } := by
  have hexec : exec .affdec s = drive s (.affdec (affineDecode c.bankRegistry s.inputs.key s.inputs.x).1
    (affineDecode c.bankRegistry s.inputs.key s.inputs.x).2) := withConfig_some hc _
  rw [hexec, hdecode, drive_eq_next]

/-- Bit i of the affine map is C[i] and the parity tree of row i. -/
theorem affine_getLsbD (m : AffineModel) (x : Byte) (i : Fin 6) :
    (affine m x).getLsbD i.val = (m.c.getLsbD i.val ^^ gf2Dot m.m[i] x) := by
  obtain ⟨h5, h4, h3, h2, h1, h0⟩ := index6_bits (m.c.getLsbD 5 ^^ gf2Dot m.m[5] x) (m.c.getLsbD 4 ^^ gf2Dot m.m[4] x)
    (m.c.getLsbD 3 ^^ gf2Dot m.m[3] x) (m.c.getLsbD 2 ^^ gf2Dot m.m[2] x) (m.c.getLsbD 1 ^^ gf2Dot m.m[1] x)
    (m.c.getLsbD 0 ^^ gf2Dot m.m[0] x)
  match i with
  | 0 => exact h0
  | 1 => exact h1
  | 2 => exact h2
  | 3 => exact h3
  | 4 => exact h4
  | 5 => exact h5

/-- At x = 0 every parity tree is 0, so the bits of C are what is left. -/
theorem affine_zero (m : AffineModel) : affine m 0 = m.c := by
  have hrow (row : BitVec 8) : gf2Dot row 0 = false := gf2Dot_zero row
  simp only [affine, hrow, Bool.xor_false, index6_of_bits]

/-- Settles O11: the decoded index is the affine map, whose bits are the parity trees. -/
theorem affdecProduct : Obligations.AffdecProduct := by
  intro s c m hc hm hx
  refine ⟨affine m s.inputs.x, _, exec_affdec hc (affineDecode_of_ne_zero hm hx), fun i => ?_⟩
  have htree : gf2Dot m.m[i] s.inputs.x =
      (List.range 8).foldl (fun acc k => acc ^^ (m.m[i].getLsbD k && s.inputs.x.getLsbD k)) false := rfl
  rw [affine_getLsbD, htree]

/-- Settles O12: the product at 0 is C, and the zero special case overrides it. -/
theorem affdecZeroInput : Obligations.AffdecZeroInput := by
  intro s c m hc hm
  refine ⟨affine_zero m, fun hx => exec_affdec hc ?_⟩
  rw [hx, affineDecode_zero hm]

end Sys2Proof.Machine
end

