-- ==== Sys2Proof/Proofs/ToneTable.lean ====
section
/-! The Tone Table lookup: the code of each branch of R140, and R146, that no other entry is driven (42_tone_table.md). -/

namespace Sys2Proof.Machine

@[simp] theorem lblCode_toNat (i : RawIndex) : (lblCode i).toNat = i.toNat :=
  BitVec.toNat_setWidth_of_le (by decide)

@[simp] theorem unknownLabel_toNat : unknownLabel.toNat = 0x40 := rfl

section
variable (idx : RawIndex) (idxValid supOk : Bool)

/-- No index means no label (42_tone_table.md R141). -/
@[simp] theorem toneLabel_no_index : toneLabel idx false supOk = unknownLabel := if_pos rfl

/-- Outside the bank's range means no label (42_tone_table.md R142). -/
@[simp] theorem toneLabel_unsupported : toneLabel idx idxValid false = unknownLabel := by
  cases idxValid with
  | false => exact toneLabel_no_index idx false
  | true  => rfl

variable {idx}

theorem toneLabel_of_gt (h : 33 < idx.toNat) : toneLabel idx idxValid supOk = unknownLabel := by
  simp [toneLabel, Nat.not_le.mpr h]

theorem toneLabel_of_le (h : idx.toNat ≤ 33) : toneLabel idx true true = lblCode idx := if_pos h

end

/-- TONELBL drives the table's code for its three input ports. -/
theorem exec_tonelbl {s : State} {c : Configuration} (hc : s.config = some c) :
    exec .tonelbl s = .next
      { s with outputs := some (.tonelbl (toneLabel s.inputs.idx s.inputs.idxValid s.inputs.supOk)) } :=
  withConfig_some hc _

/-- Settles O19, one branch of the lookup per clause. -/
theorem tonelblResult : Obligations.TonelblResult := by
  refine ⟨rfl, fun s c hc => ⟨_, exec_tonelbl hc, fun hvalid => ?_, fun hsup => ?_, fun hgt => ?_,
    fun hvalid hsup hle => ?_⟩⟩
  · rw [hvalid, toneLabel_no_index, unknownLabel_toNat]
  · rw [hsup, toneLabel_unsupported, unknownLabel_toNat]
  · rw [toneLabel_of_gt _ _ hgt, unknownLabel_toNat]
  · rw [hvalid, hsup, toneLabel_of_le hle, lblCode_toNat]

end Sys2Proof.Machine
end

