-- ==== Sys2Proof/Proofs/Follow.lean ====
section
/-! The Follow Resolver: the branches of the multiplexer of R160, and R162, that without RXZERO the flag is ignored
(43_follow_resolver.md). -/

namespace Sys2Proof.Machine

section
variable (rxZero flag : Bool) (txLbl rxLbl : LabelCode)

@[simp] theorem followLabel_selected : followLabel true true txLbl rxLbl = txLbl := rfl

/-- A nonzero RX index keeps its own label, whatever the flag is (43_follow_resolver.md R162). -/
@[simp] theorem followLabel_no_rxZero : followLabel false flag txLbl rxLbl = rxLbl := rfl

@[simp] theorem followLabel_no_flag : followLabel rxZero false txLbl rxLbl = rxLbl := by
  cases rxZero with
  | false => exact followLabel_no_rxZero false txLbl rxLbl
  | true  => rfl

end

/-- FOLLOW drives the multiplexer's choice between its two label ports. -/
theorem exec_follow {s : State} {c : Configuration} (hc : s.config = some c) :
    exec .follow s = .next { s with
      outputs := some (.follow (followLabel s.inputs.rxZero s.inputs.flag s.inputs.txLbl s.inputs.rxLbl)) } :=
  withConfig_some hc _

/-- Settles O22, one branch of the multiplexer per clause. -/
theorem followResult : Obligations.FollowResult := by
  refine ⟨rfl, fun s c hc => ⟨_, exec_follow hc, fun hzero hflag => ?_, fun hzero => ?_, fun hflag => ?_⟩⟩
  · rw [hzero, hflag, followLabel_selected]
  · rw [hzero, followLabel_no_rxZero]
  · rw [hflag, followLabel_no_flag]

end Sys2Proof.Machine
end

