-- ==== Sys2Proof/Proofs/BaseFrequency.lean ====
section
/-! The base frequency of a pair of bytes: its formula on byte values, its step and its range, and the port that carries
it (44_frequency_decoder.md R182). -/

namespace Sys2Proof.Machine

/-- A frequency that fits the 32-bit port is read back from it (30_encoding.md R79). -/
theorem freqPort_toInt {f : Int} (hlo : -2 ^ 31 ≤ f) (hhi : f < 2 ^ 31) : (freqPort f).toInt = f :=
  BitVec.toInt_ofInt_eq_self (by decide) hlo hhi

section
variable (p q : Byte)

theorem baseFreq_eq : baseFreq p q =
    1000 * (((p.toNat / 16 : Nat) - 1 : Int) * 10 + (p.toNat % 16 : Nat)) + 100 * (q.toNat / 16 : Nat) +
      10 * (q.toNat % 16 : Nat) := by
  simp only [baseFreq, hn_eq, ln_eq]

/-- Every term of the formula is a multiple of 10. -/
theorem baseFreq_emod_ten : baseFreq p q % 10 = 0 := by
  simp only [baseFreq]
  omega

/-- The least value is that of four nibbles 0, the greatest that of four nibbles 15. -/
theorem baseFreq_range : -10000 ≤ baseFreq p q ∧ baseFreq p q ≤ 156650 := by
  have hhp := hn_lt p
  have hlp := ln_lt p
  have hhq := hn_lt q
  have hlq := ln_lt q
  simp only [baseFreq]
  omega

/-- The range of a base frequency lies within the port. -/
@[simp] theorem freqPort_baseFreq_toInt : (freqPort (baseFreq p q)).toInt = baseFreq p q := by
  obtain ⟨hlo, hhi⟩ := baseFreq_range p q
  exact freqPort_toInt (by omega) (by omega)

end

/-- FBASE drives the base frequency of its two input ports. -/
theorem exec_fbase {s : State} {c : Configuration} (hc : s.config = some c) :
    exec .fbase s = .next { s with outputs := some (.fbase (freqPort (baseFreq s.inputs.p s.inputs.q))) } :=
  withConfig_some hc _

/-- Settles O23: the port carries the base frequency itself, whose formula, step and range are then read off. -/
theorem fbaseResult : Obligations.FbaseResult := by
  refine ⟨rfl, fun s c hc => ⟨_, exec_fbase hc, ?_⟩⟩
  rw [freqPort_baseFreq_toInt]
  exact ⟨baseFreq_eq _ _, baseFreq_emod_ten _ _, baseFreq_range _ _⟩

end Sys2Proof.Machine
end

