-- ==== Sys2Proof/Proofs/ChannelDecode.lean ====
section
/-! DECODE as a function of the record and the configuration (45_channel_decode.md R217), and of the delta tables alone
in its two frequencies (R215). -/

namespace Sys2Proof.Machine

/-- DECODE drives the decoded channel of its record under the loaded configuration. -/
theorem exec_decode {s : State} {c : Configuration} {r : Record} (hc : s.config = some c)
    (hr : s.inputs.record = r.bytes) :
    exec .decode s = .next { s with outputs := some (.decode (decodeChannel c r)) } := withRecord_bytes hc hr _

theorem decodeChannel_txFreq (c : Configuration) (r : Record) :
    (decodeChannel c r).txFreq = (txFrequency c.txDelta r.a0 r.a1 r.a2).1 := rfl

/-- TXF of the RX frequency is TX_FREQ of the same record. -/
theorem decodeChannel_rxFreq (c : Configuration) (r : Record) :
    (decodeChannel c r).rxFreq = (rxFrequency c.rxDelta r.b0 r.b1 r.b2 (decodeChannel c r).txFreq).1 := rfl

section
variable {c c' : Configuration} (r : Record)

theorem decodeChannel_txFreq_congr (htx : c.txDelta = c'.txDelta) :
    (decodeChannel c r).txFreq = (decodeChannel c' r).txFreq := by
  rw [decodeChannel_txFreq, decodeChannel_txFreq, htx]

/-- RX_FREQ reads the TX delta table too, through TX_FREQ. -/
theorem decodeChannel_rxFreq_congr (htx : c.txDelta = c'.txDelta) (hrx : c.rxDelta = c'.rxDelta) :
    (decodeChannel c r).rxFreq = (decodeChannel c' r).rxFreq := by
  rw [decodeChannel_rxFreq, decodeChannel_rxFreq, hrx, decodeChannel_txFreq_congr r htx]

end

/-- Settles O31: each frequency is read off the decoded channel, and is a function of the delta tables. -/
theorem frequenciesIgnoreToneConfiguration : Obligations.FrequenciesIgnoreToneConfiguration := by
  intro s t c c' r hc hc' hs ht htx hrx
  exact ⟨decodeChannel c r, decodeChannel c' r, exec_decode hc hs, exec_decode hc' ht, decodeChannel_txFreq c r,
    decodeChannel_rxFreq c r, decodeChannel_txFreq_congr r htx, decodeChannel_rxFreq_congr r htx hrx⟩

/-- Settles O33: both states drive the decoded channel of their common record and configuration. -/
theorem decodeIsPure : Obligations.DecodeIsPure := fun _ _ c r hs ht hrs hrt =>
  ⟨decodeChannel c r, exec_decode hs hrs, exec_decode ht hrt⟩

end Sys2Proof.Machine
end

