-- ==== Sys2Proof/Proofs/OpselCodes.lean ====
section
/-! The OPSEL codes: what the decoder reads from the opcode table, and that the encoder is its inverse (30_encoding.md
section 4). -/

namespace Sys2Proof

theorem decode_encode (i : Instr) : decode (encode i) = .ok i := by
  cases i <;> rfl

section
variable {w : BitVec 4}

/-- What the decoder reads stands in the opcode table. -/
theorem mem_opcodeTable_of_decode {i : Instr} (h : decode w = .ok i) : ⟨w, i⟩ ∈ opcodeTable := by
  unfold decode at h
  split at h
  · rename_i row hfound
    obtain rfl : row.code = w := by simpa using List.find?_some hfound
    obtain rfl : row.op = i := by simpa using h
    exact List.mem_of_find?_eq_some hfound
  · cases h

theorem encode_of_decode {i : Instr} (h : decode w = .ok i) : encode i = w := by
  have htable : ∀ row ∈ opcodeTable, encode row.op = row.code := by decide
  exact htable _ (mem_opcodeTable_of_decode h)

/-- Every code of the opcode table is below 10 (30_encoding.md R86 (c)). -/
theorem decode_of_ge (h : 10 ≤ w.toNat) : decode w = .error (.noOperation w) := by
  cases hw : decode w with
  | ok i =>
    have htable : ∀ row ∈ opcodeTable, row.code.toNat < 10 := by decide
    exact absurd (htable _ (mem_opcodeTable_of_decode hw)) (Nat.not_lt.mpr h)
  | error e =>
    unfold decode at hw
    split at hw
    · cases hw
    · exact hw.symm

/-- The low four bits of the byte a code travels in are the code. -/
theorem opselOfByte_setWidth (w : BitVec 4) : opselOfByte (w.setWidth 8) = w := by
  revert w; decide

end

/-- Settles O1: the ten rows of the table, and no row from 10 on. -/
theorem opselCodesDecode : Obligations.OpselCodesDecode :=
  ⟨rfl, rfl, rfl, rfl, rfl, rfl, rfl, rfl, rfl, rfl, fun _ h => decode_of_ge h⟩

/-- Settles O2: decoder and encoder are read off the same rows, and a byte carries its code in its low bits. -/
theorem decodeAndEncodeAgree : Obligations.DecodeAndEncodeAgree := by
  refine ⟨decode_encode, fun w i h => encode_of_decode h, fun i rest => ?_⟩
  simp only [encodeBytes, List.singleton_append, decodeBytes, opselOfByte_setWidth, decode_encode]

end Sys2Proof
end

