-- ==== Sys2Proof/Proofs/RecordPort.lean ====
section
/-! The record port and its bytes (30_encoding.md section 1), and a record for each pair of extractor indices
(40_bit_index_extractor.md). -/

namespace Sys2Proof

/-- Byte k of the record is REC[63-8k : 56-8k]. -/
theorem Record.word_extract_byte (r : Record) (k : Selector) :
    r.word.extractLsb' (56 - 8 * k.toNat) 8 = r.byte k := by
  refine BitVec.eq_of_getLsbD_eq fun b hb => ?_
  rw [BitVec.getLsbD_extractLsb', decide_eq_true hb, Bool.true_and, r.word_getLsbD_byte k hb]

/-- The byte sequence of the port value is the record's (20_memory.md R50). -/
@[simp] theorem bytesOfWord_word (r : Record) : bytesOfWord r.word = r.bytes :=
  calc bytesOfWord r.word
      = ([0, 1, 2, 3, 4, 5, 6, 7] : List Selector).map fun k => r.word.extractLsb' (56 - 8 * k.toNat) 8 := rfl
    _ = ([0, 1, 2, 3, 4, 5, 6, 7] : List Selector).map r.byte :=
        List.map_congr_left fun k _ => r.word_extract_byte k
    _ = r.bytes := rfl

/-- Settles O4: bit by bit, and byte by byte. -/
theorem recordPortNumbering : Obligations.RecordPortNumbering :=
  ⟨fun r k _ hb => r.word_getLsbD_byte k hb, bytesOfWord_word⟩

/-- A record with the given indices on the six bits of each wiring, every other bit 0: the two wirings share no bit. -/
def Record.ofIndices (txi rxi : RawIndex) : Record where
  a0 := 0
  a1 := 0
  a2 := 0
  a3 := BitVec.ofBoolListLE [rxi.getLsbD 3, rxi.getLsbD 2, rxi.getLsbD 1, rxi.getLsbD 0, false, false,
    rxi.getLsbD 5, rxi.getLsbD 4]
  b0 := BitVec.ofBoolListLE [false, false, false, false, txi.getLsbD 5, false, false, false]
  b1 := 0
  b2 := BitVec.ofBoolListLE [false, false, txi.getLsbD 4, false, false, false, false, false]
  b3 := BitVec.ofBoolListLE [txi.getLsbD 0, txi.getLsbD 1, txi.getLsbD 2, txi.getLsbD 3, false, false, false, false]

namespace Machine

@[simp] theorem txIndex_ofIndices (txi rxi : RawIndex) : txIndex (.ofIndices txi rxi) = txi := by
  simp only [txIndex, Record.ofIndices, BitVec.getLsbD_ofBoolListLE, List.getD_cons_succ, List.getD_cons_zero,
    index6_of_bits]

@[simp] theorem rxIndex_ofIndices (txi rxi : RawIndex) : rxIndex (.ofIndices txi rxi) = rxi := by
  simp only [rxIndex, Record.ofIndices, BitVec.getLsbD_ofBoolListLE, List.getD_cons_succ, List.getD_cons_zero,
    index6_of_bits]

/-- Settles O9, on the record that carries the two indices. -/
theorem everyIndexPairIsReached : Obligations.EveryIndexPairIsReached := by
  intro txi rxi
  refine ⟨.ofIndices txi rxi, fun s c hc hr => ⟨?_, ?_⟩⟩
  · rw [exec_txidx hc hr, txIndex_ofIndices]
  · rw [exec_rxidx hc hr, rxIndex_ofIndices]

end Machine

end Sys2Proof
end

