-- ==== Sys2Proof/Proofs/LegalConfiguration.lean ====
section
/-! Each check of the load as the constraint it stands for (93_implementation_defined.md I3, 10_state.md R26 to R30,
R35), and what a legal configuration gives the operations. -/

namespace Sys2Proof

/-- Digits, a point, one digit (10_state.md R26). -/
theorem isToneText_iff {label : String} : isToneText label = true ↔
    ∃ (digits : List Char) (d : Char), label.toList = digits ++ ['.', d] ∧ digits ≠ [] ∧
      (∀ ch ∈ digits, ch.isDigit = true) ∧ d.isDigit = true := by
  constructor
  · intro h
    unfold isToneText at h
    split at h
    · rename_i d digits hrev
      simp only [Bool.and_eq_true, Bool.not_eq_true', List.isEmpty_eq_false_iff, List.all_eq_true] at h
      obtain ⟨⟨hd, hne⟩, hdigits⟩ := h
      refine ⟨digits.reverse, d, ?_, by simpa using hne, by simpa using hdigits, hd⟩
      rw [← List.reverse_reverse label.toList, hrev]
      simp
    · cases h
  · rintro ⟨digits, d, htext, hne, hdigits, hd⟩
    have hrev : label.toList.reverse = d :: '.' :: digits.reverse := by simp [htext]
    simp only [isToneText, hrev]
    simpa [hd, hne] using hdigits

theorem Configuration.labelsLegal_iff {c : Configuration} : c.labelsLegal = true ↔
    c.toneLabels[0] = "0" ∧ ∀ i : Fin 34, i ≠ 0 → isToneText c.toneLabels[i] = true := by
  simp only [Configuration.labelsLegal, List.all_eq_true, List.mem_finRange, true_implies]
  constructor
  · intro h
    refine ⟨by simpa using h 0, fun i hi => ?_⟩
    simpa [hi] using h i
  · rintro ⟨hzero, hrest⟩ i
    by_cases hi : i = 0
    · subst hi
      simpa using hzero
    · simpa [hi] using hrest i hi

theorem isPartialMap_iff {α : Type} [DecidableEq α] {t : List (Key × α)} : isPartialMap t = true ↔
    ∀ k v v', (k, v) ∈ t → (k, v') ∈ t → v = v' := by
  simp only [isPartialMap, List.all_eq_true, Bool.or_eq_true, bne_iff_ne, beq_iff_eq]
  constructor
  · intro h k v v' hv hv'
    exact (h _ hv _ hv').resolve_left (by simp)
  · rintro h ⟨k, v⟩ hv ⟨k', v'⟩ hv'
    by_cases hk : k = k'
    · subst hk
      exact .inr (h k v v' hv hv')
    · exact .inl hk

/-- SUP[34..63] = 0, as one field and bit by bit. -/
theorem sup_high_eq_zero_iff {sup : BitVec 64} :
    sup.extractLsb' 34 30 = 0 ↔ ∀ j, 34 ≤ j → j ≤ 63 → sup.getLsbD j = false := by
  constructor
  · intro h j hlo hhi
    have hbit := congrArg (BitVec.getLsbD · (j - 34)) h
    simpa [show j - 34 < 30 by omega, show 34 + (j - 34) = j by omega] using hbit
  · intro h
    refine BitVec.eq_of_getLsbD_eq fun k hk => ?_
    simp [hk, h (34 + k) (by omega) (by omega)]

theorem AffineModel.legal_iff {m : AffineModel} : m.legal = true ↔
    m.sup.getLsbD 0 = true ∧ (∀ j, 34 ≤ j → j ≤ 63 → m.sup.getLsbD j = false) ∧
      ¬ (1 ≤ m.c.toNat ∧ m.c.toNat ≤ 33) := by
  have hconst : m.c = 0 ∨ 34 ≤ m.c.toNat ↔ ¬ (1 ≤ m.c.toNat ∧ m.c.toNat ≤ 33) := by
    rw [← BitVec.toNat_inj, BitVec.ofNat_eq_ofNat, BitVec.toNat_zero]
    omega
  simp only [AffineModel.legal, Bool.and_eq_true, Bool.or_eq_true, beq_iff_eq, decide_eq_true_eq, and_assoc,
    sup_high_eq_zero_iff, hconst]

theorem deltasLegal_iff {t : List (Key × Int)} : deltasLegal t = true ↔
    (∀ k v v', (k, v) ∈ t → (k, v') ∈ t → v = v') ∧ ∀ k v, (k, v) ∈ t → -1000000 ≤ v ∧ v ≤ 1000000 := by
  have hbound (v : Int) : v.natAbs ≤ 1000000 ↔ -1000000 ≤ v ∧ v ≤ 1000000 := by omega
  simp only [deltasLegal, Bool.and_eq_true, isPartialMap_iff, List.all_eq_true, decide_eq_true_eq, hbound, Prod.forall]

theorem AffineModel.solvesTones_iff {m : AffineModel} : m.solvesTones = true ↔
    ∀ y : RawIndex, 1 ≤ y.toNat → y.toNat ≤ 31 → ∃ x : Byte, Machine.linearPart m x = y ^^^ m.c :=
  decide_eq_true_iff

/-- In a partial map the model a lookup of the known bank finds is any that is registered for it. -/
theorem Configuration.knownBankConforms_iff {c : Configuration} (hmap : isPartialMap c.bankRegistry = true) :
    c.knownBankConforms = true ↔ ∃ m, ((0xAC37 : Key), m) ∈ c.bankRegistry ∧ m.solvesTones = true := by
  unfold Configuration.knownBankConforms
  constructor
  · intro h
    split at h
    · rename_i m hm
      exact ⟨m, Machine.mem_of_lookup_eq_some hm, h⟩
    · cases h
  · rintro ⟨m, hmem, hsolves⟩
    rw [Machine.lookup_eq_some_of_mem (isPartialMap_iff.mp hmap) hmem]
    exact hsolves

theorem Configuration.legal_iff {c : Configuration} : c.legal = true ↔
    c.labelsLegal = true ∧ isPartialMap c.bankRegistry = true ∧ (∀ k m, (k, m) ∈ c.bankRegistry → m.legal = true) ∧
      deltasLegal c.txDelta = true ∧ deltasLegal c.rxDelta = true ∧ c.knownBankConforms = true := by
  simp only [Configuration.legal, Bool.and_eq_true, List.all_eq_true, Prod.forall, and_assoc]

/-- Settles O38, one check of the load after another. -/
theorem legalConfigurations : Obligations.LegalConfigurations := by
  intro c
  have hdeltas (P : List (Key × Int) → Prop) : (∀ t ∈ [c.txDelta, c.rxDelta], P t) ↔ P c.txDelta ∧ P c.rxDelta := by
    simp
  rw [Configuration.legal_iff, Configuration.labelsLegal_iff, hdeltas, ← deltasLegal_iff, ← deltasLegal_iff,
    ← isPartialMap_iff]
  simp only [isToneText_iff, ← AffineModel.legal_iff, ← AffineModel.solvesTones_iff, and_assoc]
  constructor
  · rintro ⟨hzero, hlabels, hmap, hmodels, htx, hrx, hbank⟩
    exact ⟨hzero, hlabels, hmap, hmodels, htx, hrx, (Configuration.knownBankConforms_iff hmap).mp hbank⟩
  · rintro ⟨hzero, hlabels, hmap, hmodels, htx, hrx, hbank⟩
    exact ⟨hzero, hlabels, hmap, hmodels, htx, hrx, (Configuration.knownBankConforms_iff hmap).mpr hbank⟩

/-! ### What a legal configuration gives -/

section
variable {c : Configuration}

theorem Configuration.toneLabels_zero (h : c.legal = true) : c.toneLabels[0] = "0" := by
  obtain ⟨hlabels, -⟩ := Configuration.legal_iff.mp h
  exact (Configuration.labelsLegal_iff.mp hlabels).1

theorem Configuration.txDelta_legal (h : c.legal = true) : deltasLegal c.txDelta = true := by
  obtain ⟨-, -, -, htx, -, -⟩ := Configuration.legal_iff.mp h
  exact htx

theorem Configuration.rxDelta_legal (h : c.legal = true) : deltasLegal c.rxDelta = true := by
  obtain ⟨-, -, -, -, hrx, -⟩ := Configuration.legal_iff.mp h
  exact hrx

/-- Every model a legal configuration registers is legal. -/
theorem Configuration.model_legal (h : c.legal = true) {key : Key} {m : AffineModel}
    (hm : Machine.lookup c.bankRegistry key = some m) : m.legal = true := by
  obtain ⟨-, -, hmodels, -⟩ := Configuration.legal_iff.mp h
  exact hmodels key m (Machine.mem_of_lookup_eq_some hm)

/-- The known bank of a legal configuration (10_state.md R35 (a)). -/
theorem Configuration.knownBank (h : c.legal = true) :
    ∃ m, Machine.lookup c.bankRegistry 0xAC37 = some m ∧ m.solvesTones = true := by
  obtain ⟨-, hmap, -, -, -, hbank⟩ := Configuration.legal_iff.mp h
  obtain ⟨m, hmem, hsolves⟩ := (Configuration.knownBankConforms_iff hmap).mp hbank
  exact ⟨m, Machine.lookup_eq_some_of_mem (isPartialMap_iff.mp hmap) hmem, hsolves⟩

end

end Sys2Proof
end

