-- ==== Sys2Proof/Proofs/AffineLaws.lean ====
section
/-! BANKKEY, and the Affine GF(2) Decoder beyond R122 and R123: the registry check, the range check, the laws of the
product, and what the constraints on C and on the known bank are for (41_affine_decoder.md). -/

namespace Sys2Proof.Machine

/-! ### BANKKEY -/

theorem exec_bankkey {s : State} {c : Configuration} {r : Record} (hc : s.config = some c)
    (hr : s.inputs.record = r.bytes) :
    exec .bankkey s = .next { s with outputs := some (.bankkey (bankKey c.rxBankKeySel r)) } :=
  withRecord_bytes hc hr _

/-- Settles O10: the packed key of the two selected bytes, and the selector of the default. -/
theorem bankkeyResult : Obligations.BankkeyResult := by
  intro s c r hc hr
  refine ⟨_, exec_bankkey hc hr, packKey_toNat _ _, fun hsel => ?_⟩
  rw [hsel]
  exact packKey_toNat _ _

/-! ### The registry check and the range check -/

theorem affineDecode_unregistered {registry : List (Key × AffineModel)} {key : Key} (h : lookup registry key = none)
    (x : Byte) : affineDecode registry key x = (none, .unknownBank) := by
  simp only [affineDecode, h]

/-- Settles O13: no entry of the key, no model, and the check comes before x is looked at. -/
theorem affdecUnknownBank : Obligations.AffdecUnknownBank := fun _ _ hc hkey =>
  exec_affdec hc (affineDecode_unregistered (lookup_eq_none_iff.mpr hkey) _)

theorem bankStatus_eq_ok_iff {sup : BitVec 64} {idx : RawIndex} :
    bankStatus sup idx = .ok ↔ sup.getLsbD idx.toNat = true := by
  simp [bankStatus]

theorem bankStatus_eq_unmapped_iff {sup : BitVec 64} {idx : RawIndex} :
    bankStatus sup idx = .unmappedIndex ↔ sup.getLsbD idx.toNat = false := by
  simp [bankStatus]

theorem bankStatus_cases (sup : BitVec 64) (idx : RawIndex) :
    bankStatus sup idx = .ok ∨ bankStatus sup idx = .unmappedIndex := by
  rw [bankStatus_eq_ok_iff, bankStatus_eq_unmapped_iff]
  exact Bool.eq_false_or_eq_true _

/-- A legal SUP holds no index above 33 (10_state.md R29). -/
theorem bankStatus_of_gt {m : AffineModel} (hm : m.legal = true) {idx : RawIndex} (h : 34 ≤ idx.toNat) :
    bankStatus m.sup idx = .unmappedIndex := by
  obtain ⟨-, hhigh, -⟩ := AffineModel.legal_iff.mp hm
  exact bankStatus_eq_unmapped_iff.mpr (hhigh _ h (Nat.le_of_lt_succ idx.isLt))

/-- Under a legal model the zero special case agrees with the range check, because index 0 is in every SUP: a registered
key gives an index with the status SUP says. -/
theorem affineDecode_registered {registry : List (Key × AffineModel)} {key : Key} {m : AffineModel}
    (hm : lookup registry key = some m) (hlegal : m.legal = true) (x : Byte) :
    ∃ idx, affineDecode registry key x = (some idx, bankStatus m.sup idx) := by
  by_cases hx : x = 0
  · obtain ⟨hzero, -, -⟩ := AffineModel.legal_iff.mp hlegal
    refine ⟨0, ?_⟩
    rw [hx, affineDecode_zero hm, bankStatus_eq_ok_iff.mpr hzero]
  · exact ⟨_, affineDecode_of_ne_zero hm hx⟩

/-- Settles O14, clause by clause from the status of the index in SUP. -/
theorem affdecRangeCheck : Obligations.AffdecRangeCheck := by
  intro s c m hc hlegal hm
  have hmodel := Configuration.model_legal hlegal hm
  obtain ⟨idx, hdecode⟩ := affineDecode_registered hm hmodel s.inputs.x
  exact ⟨idx, _, exec_affdec hc hdecode, bankStatus_eq_ok_iff, bankStatus_eq_unmapped_iff, bankStatus_of_gt hmodel⟩

/-! ### The laws of the product -/

/-- The parity over the listed bits, after a parity already taken. -/
def parityFrom (acc : Bool) (ks : List Nat) (row x : BitVec 8) : Bool :=
  ks.foldl (fun acc k => acc ^^ (row.getLsbD k && x.getLsbD k)) acc

theorem gf2Dot_eq_parityFrom (row x : BitVec 8) : gf2Dot row x = parityFrom false [0, 1, 2, 3, 4, 5, 6, 7] row x := rfl

theorem parityFrom_xor (a b : Bool) (ks : List Nat) (row x y : BitVec 8) :
    parityFrom (a ^^ b) ks row (x ^^^ y) = (parityFrom a ks row x ^^ parityFrom b ks row y) := by
  induction ks generalizing a b with
  | nil => rfl
  | cons k ks ih =>
    have hbit : ((a ^^ b) ^^ (row.getLsbD k && (x ^^^ y).getLsbD k)) =
        ((a ^^ (row.getLsbD k && x.getLsbD k)) ^^ (b ^^ (row.getLsbD k && y.getLsbD k))) := by
      rw [BitVec.getLsbD_xor, Bool.and_xor_distrib_left, Bool.xor_assoc, Bool.xor_assoc, Bool.xor_left_comm b]
    exact (congrArg (parityFrom · ks row (x ^^^ y)) hbit).trans (ih _ _)

/-- A parity tree is linear. -/
theorem gf2Dot_xor (row x y : BitVec 8) : gf2Dot row (x ^^^ y) = (gf2Dot row x ^^ gf2Dot row y) := by
  simp only [gf2Dot_eq_parityFrom]
  exact parityFrom_xor false false [0, 1, 2, 3, 4, 5, 6, 7] row x y

theorem linearPart_getLsbD (m : AffineModel) (x : Byte) (i : Fin 6) :
    (linearPart m x).getLsbD i.val = gf2Dot m.m[i] x := by
  rw [linearPart, BitVec.getLsbD_xor, affine_getLsbD, Bool.xor_right_comm, Bool.xor_self, Bool.false_xor]

theorem linearPart_xor (m : AffineModel) (x y : Byte) :
    linearPart m (x ^^^ y) = linearPart m x ^^^ linearPart m y := by
  refine BitVec.eq_of_getLsbD_eq fun i hi => ?_
  rw [BitVec.getLsbD_xor, linearPart_getLsbD m _ ⟨i, hi⟩, linearPart_getLsbD m _ ⟨i, hi⟩,
    linearPart_getLsbD m _ ⟨i, hi⟩, gf2Dot_xor]

theorem affine_eq (m : AffineModel) (x : Byte) : affine m x = linearPart m x ^^^ m.c := by
  rw [linearPart, BitVec.xor_assoc, BitVec.xor_self, BitVec.xor_zero]

/-- Settles O15: the product is linear, and of the three constants two cancel. -/
theorem affineLaw : Obligations.AffineLaw := by
  intro m x y
  refine ⟨fun _ _ _ => ?_, linearPart_xor m x y⟩
  calc affine m (x ^^^ y)
      = linearPart m x ^^^ linearPart m y ^^^ m.c := by rw [affine_eq, linearPart_xor]
    _ = linearPart m x ^^^ m.c ^^^ linearPart m y := by
        rw [BitVec.xor_assoc, BitVec.xor_comm (linearPart m y), BitVec.xor_assoc]
    _ = affine m x ^^^ (affine m y ^^^ m.c) := by rw [← affine_eq, linearPart]
    _ = affine m x ^^^ affine m y ^^^ m.c := (BitVec.xor_assoc _ _ _).symm

/-! ### RXIDX as an affine decode -/

/-- A parity tree of a row with one bit set is that bit of x. -/
theorem gf2Dot_unit : ∀ x : BitVec 8, gf2Dot 0x01#8 x = x.getLsbD 0 ∧ gf2Dot 0x02#8 x = x.getLsbD 1 ∧
    gf2Dot 0x04#8 x = x.getLsbD 2 ∧ gf2Dot 0x08#8 x = x.getLsbD 3 ∧ gf2Dot 0x40#8 x = x.getLsbD 6 ∧
    gf2Dot 0x80#8 x = x.getLsbD 7 := by
  decide +kernel

/-- The permutation model of RXIDX (40_bit_index_extractor.md). -/
def rxidxModel (sup : BitVec 64) : AffineModel :=
  { m := #v[0x08, 0x04, 0x02, 0x01, 0x80, 0x40], c := 0, sup := sup }

theorem affine_rxidxModel (sup : BitVec 64) (r : Record) : affine (rxidxModel sup) r.a3 = rxIndex r := by
  obtain ⟨h0, h1, h2, h3, h6, h7⟩ := gf2Dot_unit r.a3
  simp [affine, rxidxModel, rxIndex, h0, h1, h2, h3, h6, h7]

/-- The permutation model takes 0 to 0, so that the zero special case changes nothing. -/
theorem affineDecode_rxidxModel {registry : List (Key × AffineModel)} {key : Key} {sup : BitVec 64}
    (hm : lookup registry key = some (rxidxModel sup)) (r : Record) :
    ∃ st, affineDecode registry key r.a3 = (some (rxIndex r), st) := by
  rw [← affine_rxidxModel sup]
  by_cases hx : r.a3 = 0
  · refine ⟨.ok, ?_⟩
    rw [hx, affineDecode_zero hm, affine_zero]
    rfl
  · exact ⟨_, affineDecode_of_ne_zero hm hx⟩

/-- Settles O16: the rows of the permutation model pick the bits of the RX wiring. -/
theorem rxidxIsAnAffineDecode : Obligations.RxidxIsAnAffineDecode := by
  intro s c r sup hc hr hm hx
  obtain ⟨st, hdecode⟩ := affineDecode_rxidxModel hm r
  exact ⟨rxIndex r, st, exec_rxidx hc hr, exec_affdec hc (hx ▸ hdecode)⟩

/-! ### The constraints from the encode direction -/

theorem linearPart_zero (m : AffineModel) : linearPart m 0 = 0 := by
  rw [linearPart, affine_zero]
  exact BitVec.xor_self

/-- Settles O17: the product without the constant is 0 at x = 0, and so solves the system of y = C. -/
theorem forbiddenConstantBreaksRoundTrip : Obligations.ForbiddenConstantBreaksRoundTrip := by
  intro s c m hc hm hx hlo hhi
  refine ⟨?_, exec_affdec hc (hx ▸ affineDecode_zero hm), ?_, ?_⟩
  · rw [hx, linearPart_zero]
    exact BitVec.xor_self.symm
  · intro hzero
    simp [hzero] at hlo
  · refine Bool.eq_false_iff.mpr fun hlegal => ?_
    obtain ⟨-, -, hconst⟩ := AffineModel.legal_iff.mp hlegal
    exact hconst ⟨hlo, hhi⟩

/-- A solution of the encode system of an index 1..31 is decoded to that index, and is not 0 because C is not that
index. -/
theorem exists_decoded_to_tone {m : AffineModel} (hlegal : m.legal = true) (hsolves : m.solvesTones = true)
    {y : RawIndex} (hlo : 1 ≤ y.toNat) (hhi : y.toNat ≤ 31) : ∃ x : Byte, x ≠ 0 ∧ affine m x = y := by
  obtain ⟨x, hx⟩ := AffineModel.solvesTones_iff.mp hsolves y hlo hhi
  have hy : affine m x = y := by
    rw [affine_eq, hx, BitVec.xor_assoc, BitVec.xor_self, BitVec.xor_zero]
  refine ⟨x, fun hzero => ?_, hy⟩
  obtain ⟨-, -, hconst⟩ := AffineModel.legal_iff.mp hlegal
  rw [hzero, affine_zero] at hy
  exact hconst (hy ▸ ⟨hlo, by omega⟩)

/-- Settles O18: the known bank solves the encode system, and AFFDEC takes the solution back. -/
theorem conformingBankDecodesBack : Obligations.ConformingBankDecodesBack := by
  intro s c hc hlegal hkey y hlo hhi
  obtain ⟨m, hm, hsolves⟩ := Configuration.knownBank hlegal
  obtain ⟨x, hx, hy⟩ := exists_decoded_to_tone (Configuration.model_legal hlegal hm) hsolves hlo hhi
  refine ⟨x, hx, fun t ht htkey htx => ⟨bankStatus m.sup y, exec_affdec ht ?_⟩⟩
  rw [htkey, hkey, htx, affineDecode_of_ne_zero hm hx, hy]

end Sys2Proof.Machine
end

