-- ==== Sys2Proof/Proofs/LabelText.lean ====
section
/-! What text a label code stands for (42_tone_table.md R144), and where two codes read the same (30_encoding.md section
3). -/

namespace Sys2Proof.Machine

section
variable {c : Configuration} {sentinel : String}

@[simp] theorem labelText_unknown : labelText c sentinel unknownLabel = some sentinel := if_pos rfl

/-- A tone code stands for the entry of its number: it is below the sentinel's code. -/
theorem labelText_of_lt {code : LabelCode} (h : code.toNat < 34) :
    labelText c sentinel code = some (toneROM c ⟨code.toNat, h⟩) := by
  have hne : code ≠ unknownLabel := by
    rintro rfl
    exact absurd h (by decide)
  rw [labelText, if_neg hne, dif_pos h]

theorem labelText_lblCode (i : Fin 34) :
    labelText c sentinel (lblCode (BitVec.ofNat 6 i.val)) = some c.toneLabels[i] := by
  have hcode : (lblCode (BitVec.ofNat 6 i.val)).toNat = i.val := by
    rw [lblCode_toNat, BitVec.toNat_ofNat, Nat.mod_eq_of_lt (by omega)]
  have hlt : (lblCode (BitVec.ofNat 6 i.val)).toNat < 34 := hcode.symm ▸ i.isLt
  have hentry : (⟨_, hlt⟩ : Fin 34) = i := Fin.ext hcode
  rw [labelText_of_lt hlt, hentry]
  rfl

theorem labelText_of_not_driven {code : LabelCode} (h : ¬ labelDriven code) : labelText c sentinel code = none := by
  obtain ⟨hgt, hne⟩ := not_or.mp h
  rw [labelText, if_neg hne, dif_neg (by omega)]

end

/-- A driven code is that of a tone, or the sentinel's. -/
theorem labelDriven_cases {code : LabelCode} (h : labelDriven code) :
    (∃ i : Fin 34, code = lblCode (BitVec.ofNat 6 i.val)) ∨ code = unknownLabel := by
  refine h.imp_left fun hle => ⟨⟨code.toNat, by omega⟩, BitVec.eq_of_toNat_eq ?_⟩
  rw [lblCode_toNat, BitVec.toNat_ofNat, Nat.mod_eq_of_lt (by omega)]

/-- Settles O20, one kind of code per clause; LBL(0) is entry 0, which is "0" in a legal configuration. -/
theorem labelTextOfEachCode : Obligations.LabelTextOfEachCode := by
  intro c sentinel hlegal
  refine ⟨?_, labelText_lblCode, labelText_unknown, fun code => labelText_of_not_driven⟩
  have hzero : c.toneLabels[(0 : Fin 34)] = "0" := Configuration.toneLabels_zero hlegal
  exact hzero ▸ labelText_lblCode 0

/-- Settles O21: the entries are distinct from each other and from the sentinel, which leaves equal codes. -/
theorem labelEqualityIsCodeEquality : Obligations.LabelEqualityIsCodeEquality := by
  intro c sentinel hdistinct hsentinel a b ha hb
  refine ⟨fun htext => ?_, fun h => h ▸ rfl⟩
  obtain ⟨i, rfl⟩ | rfl := labelDriven_cases ha
  · rw [labelText_lblCode] at htext
    obtain ⟨j, rfl⟩ | rfl := labelDriven_cases hb
    · rw [labelText_lblCode] at htext
      rw [hdistinct i j (Option.some.inj htext)]
    · rw [labelText_unknown] at htext
      exact absurd (Option.some.inj htext) (hsentinel i)
  · rw [labelText_unknown] at htext
    obtain ⟨j, rfl⟩ | rfl := labelDriven_cases hb
    · rw [labelText_lblCode] at htext
      exact absurd (Option.some.inj htext).symm (hsentinel j)
    · rfl

end Sys2Proof.Machine
end

