-- ==== Sys2Proof/Proofs/Frequencies.lean ====
section
/-! The Frequency Decoder beyond R182: the exact decimal of FBASE, the branches of TXFREQ and RXFREQ, and that no
frequency wraps under legal delta tables (44_frequency_decoder.md). -/

namespace Sys2Proof.Machine

/-! ### The exact decimal of FBASE -/

/-- The integer formula is 1000 times the source's decimal one (44_frequency_decoder.md section 1). -/
theorem thousandths_eq_decimal (hp lp hq lq : ℕ) :
    ((1000 * (((hp : ℤ) - 1) * 10 + lp) + 100 * hq + 10 * lq : ℤ) : ℚ) =
      1000 * (((hp : ℚ) - 1) * 10 + lp + hq / 10 + lq / 100) := by
  push_cast
  ring

/-- Settles O24: 1000 times the decimal value is an integer, which rounding leaves. -/
theorem fbaseIsTheExactDecimal : Obligations.FbaseIsTheExactDecimal := by
  intro s c hc mhz hmhz
  have hexact : ((freqPort (baseFreq s.inputs.p s.inputs.q)).toInt : ℚ) = 1000 * mhz := by
    rw [freqPort_baseFreq_toInt, baseFreq_eq, thousandths_eq_decimal, hmhz]
  refine ⟨_, exec_fbase hc, hexact, ?_⟩
  rw [← hexact, round_intCast, hexact, mul_div_cancel_left₀ _ (by norm_num)]

/-! ### The branches -/

/-- A delta within the tables' bound leaves the sum within the port. -/
theorem freqPort_add_toInt {p q : Byte} {d : Int} (h : -1000000 ≤ d ∧ d ≤ 1000000) :
    (freqPort (baseFreq p q + d)).toInt = baseFreq p q + d := by
  obtain ⟨hlo, hhi⟩ := baseFreq_range p q
  exact freqPort_toInt (by omega) (by omega)

theorem txFallback_eq (a2 : Byte) :
    txFallback a2 = 10 * (a2.toNat % 16 : Nat) + (if a2.toNat / 16 = 10 then 15 else 0) := by
  simp only [txFallback, hn_eq, ln_eq]

theorem txFallback_range (a2 : Byte) : 0 ≤ txFallback a2 ∧ txFallback a2 ≤ 165 := by
  have hln := ln_lt a2
  unfold txFallback
  split <;> omega

section
variable {deltas : List (Key × Int)} {v : Int}

theorem delta_bounds (hlegal : deltasLegal deltas = true) {key : Key} (h : lookup deltas key = some v) :
    -1000000 ≤ v ∧ v ≤ 1000000 :=
  (deltasLegal_iff.mp hlegal).2 key v (mem_of_lookup_eq_some h)

/-- In a legal delta table the entry of a key is what a lookup finds. -/
theorem lookup_delta (hlegal : deltasLegal deltas = true) {key : Key} (h : (key, v) ∈ deltas) :
    lookup deltas key = some v :=
  lookup_eq_some_of_mem (deltasLegal_iff.mp hlegal).1 h

variable {p q r : Byte} {txf : FreqWord}

theorem txFrequency_of_hit (h : lookup deltas (packKey q r) = some v) :
    txFrequency deltas p q r = (freqPort (baseFreq p q + v), true) := by
  simp only [txFrequency, h]

theorem txFrequency_of_miss (h : lookup deltas (packKey q r) = none) :
    txFrequency deltas p q r = (freqPort (baseFreq p q + txFallback r), false) := by
  simp only [txFrequency, h]

theorem rxFrequency_of_hit (h : lookup deltas (packKey q r) = some v) :
    rxFrequency deltas p q r txf = (freqPort (baseFreq p q + v), true) := by
  simp only [rxFrequency, h]

/-- The split channel (44_frequency_decoder.md R185). -/
theorem rxFrequency_of_split (h : lookup deltas (packKey q r) = none) (hsplit : r.toNat / 16 = 14) :
    rxFrequency deltas p q r txf = (freqPort (baseFreq p q + 1000), false) := by
  simp only [rxFrequency, h, hn_eq, hsplit, if_true]

/-- The simplex channel (44_frequency_decoder.md R186). -/
theorem rxFrequency_of_simplex (h : lookup deltas (packKey q r) = none) (hsplit : r.toNat / 16 ≠ 14) :
    rxFrequency deltas p q r txf = (txf, false) := by
  simp only [rxFrequency, h, hn_eq, if_neg hsplit]

end

/-- A key given by its number is the packed pair. -/
theorem eq_packKey {k : Key} {a b : Byte} (h : k.toNat = 256 * a.toNat + b.toNat) : k = packKey a b :=
  BitVec.eq_of_toNat_eq (h.trans (packKey_toNat a b).symm)

section
variable {s : State} {c : Configuration} {f : FreqWord} {hit : Bool}

/-- TXFREQ drives the TX frequency of its three input ports. -/
theorem exec_txfreq (hc : s.config = some c)
    (hresult : txFrequency c.txDelta s.inputs.a0 s.inputs.a1 s.inputs.a2 = (f, hit)) :
    exec .txfreq s = .next { s with outputs := some (.txfreq f hit) } := by
  have hexec : exec .txfreq s = drive s (.txfreq (txFrequency c.txDelta s.inputs.a0 s.inputs.a1 s.inputs.a2).1
    (txFrequency c.txDelta s.inputs.a0 s.inputs.a1 s.inputs.a2).2) := withConfig_some hc _
  rw [hexec, hresult, drive_eq_next]

/-- RXFREQ drives the RX frequency of its four input ports. -/
theorem exec_rxfreq (hc : s.config = some c)
    (hresult : rxFrequency c.rxDelta s.inputs.b0 s.inputs.b1 s.inputs.b2 s.inputs.txf = (f, hit)) :
    exec .rxfreq s = .next { s with outputs := some (.rxfreq f hit) } := by
  have hexec : exec .rxfreq s =
    drive s (.rxfreq (rxFrequency c.rxDelta s.inputs.b0 s.inputs.b1 s.inputs.b2 s.inputs.txf).1
      (rxFrequency c.rxDelta s.inputs.b0 s.inputs.b1 s.inputs.b2 s.inputs.txf).2) := withConfig_some hc _
  rw [hexec, hresult, drive_eq_next]

end

/-- Settles O25: the entry of the key, or the fallback without one. -/
theorem txfreqResult : Obligations.TxfreqResult := by
  intro s c hc hlegal k hk
  obtain rfl := eq_packKey hk
  have htable := Configuration.txDelta_legal hlegal
  constructor
  · intro v hv
    have hfound := lookup_delta htable hv
    exact ⟨_, exec_txfreq hc (txFrequency_of_hit hfound), freqPort_add_toInt (delta_bounds htable hfound)⟩
  · intro hmiss
    refine ⟨_, exec_txfreq hc (txFrequency_of_miss (lookup_eq_none_iff.mpr hmiss)), ?_⟩
    obtain ⟨hlo, hhi⟩ := txFallback_range s.inputs.a2
    rw [freqPort_add_toInt ⟨by omega, by omega⟩, txFallback_eq, Int.add_assoc]

/-- Settles O26: the entry of the key, and without one the split or the simplex channel. -/
theorem rxfreqResult : Obligations.RxfreqResult := by
  intro s c hc hlegal k hk
  obtain rfl := eq_packKey hk
  have htable := Configuration.rxDelta_legal hlegal
  constructor
  · intro v hv
    have hfound := lookup_delta htable hv
    exact ⟨_, exec_rxfreq hc (rxFrequency_of_hit hfound), freqPort_add_toInt (delta_bounds htable hfound)⟩
  · intro hmiss
    have hnone := lookup_eq_none_iff.mpr hmiss
    constructor
    · intro hsplit
      exact ⟨_, exec_rxfreq hc (rxFrequency_of_split hnone hsplit), freqPort_add_toInt (by decide)⟩
    · intro hsimplex
      exact exec_rxfreq hc (rxFrequency_of_simplex hnone hsimplex)

/-- Settles O28: the fallback delta of 0xA4 is 55 too. -/
theorem exampleKeyCoincidence : Obligations.ExampleKeyCoincidence := by
  intro s s' c c' hc hc' hhit hmiss ha1 ha2 ha0' ha1' ha2'
  have hkey : packKey 0x47 0xA4 = 0x47A4 := rfl
  have hfallback : txFallback 0xA4 = 55 := rfl
  refine ⟨freqPort (baseFreq s.inputs.a0 0x47 + 55), exec_txfreq hc ?_, exec_txfreq hc' ?_⟩
  · rw [ha1, ha2, txFrequency_of_hit (hkey ▸ hhit)]
  · rw [ha0', ha1', ha2', txFrequency_of_miss (hkey ▸ hmiss), hfallback]

/-! ### Ranges -/

/-- A base frequency and a delta within the tables' bound (44_frequency_decoder.md R187). -/
theorem inFreqRange_add {p q : Byte} {d : Int} (h : -1000000 ≤ d ∧ d ≤ 1000000) :
    inFreqRange (freqPort (baseFreq p q + d)) := by
  obtain ⟨hlo, hhi⟩ := baseFreq_range p q
  rw [inFreqRange, freqPort_add_toInt h]
  omega

section
variable {deltas : List (Key × Int)} (hlegal : deltasLegal deltas = true) (p q r : Byte)
include hlegal

theorem txFrequency_range : inFreqRange (txFrequency deltas p q r).1 ∧
    ((txFrequency deltas p q r).2 = false →
      -10000 ≤ (txFrequency deltas p q r).1.toInt ∧ (txFrequency deltas p q r).1.toInt ≤ 156815) := by
  cases hfound : lookup deltas (packKey q r) with
  | some v =>
    rw [txFrequency_of_hit hfound]
    exact ⟨inFreqRange_add (delta_bounds hlegal hfound), nofun⟩
  | none =>
    obtain ⟨hlo, hhi⟩ := txFallback_range r
    obtain ⟨hblo, hbhi⟩ := baseFreq_range p q
    have hbound : -1000000 ≤ txFallback r ∧ txFallback r ≤ 1000000 := by omega
    rw [txFrequency_of_miss hfound]
    refine ⟨inFreqRange_add hbound, fun _ => ?_⟩
    simp only [freqPort_add_toInt hbound]
    omega

theorem rxFrequency_range (txf : FreqWord) :
    ((rxFrequency deltas p q r txf).2 = true → inFreqRange (rxFrequency deltas p q r txf).1) ∧
    ((rxFrequency deltas p q r txf).2 = false → r.toNat / 16 = 14 →
      -9000 ≤ (rxFrequency deltas p q r txf).1.toInt ∧ (rxFrequency deltas p q r txf).1.toInt ≤ 157650) ∧
    (inFreqRange txf → inFreqRange (rxFrequency deltas p q r txf).1) := by
  cases hfound : lookup deltas (packKey q r) with
  | some v =>
    have hrange : inFreqRange (freqPort (baseFreq p q + v)) := inFreqRange_add (delta_bounds hlegal hfound)
    rw [rxFrequency_of_hit hfound]
    exact ⟨fun _ => hrange, nofun, fun _ => hrange⟩
  | none =>
    by_cases hsplit : r.toNat / 16 = 14
    · obtain ⟨hlo, hhi⟩ := baseFreq_range p q
      rw [rxFrequency_of_split hfound hsplit]
      refine ⟨nofun, fun _ _ => ?_, fun _ => inFreqRange_add (by decide)⟩
      simp only [freqPort_add_toInt (show (-1000000 : Int) ≤ 1000 ∧ (1000 : Int) ≤ 1000000 by decide)]
      omega
    · rw [rxFrequency_of_simplex hfound hsplit]
      exact ⟨nofun, fun _ h => absurd h hsplit, id⟩

end

section
variable {c : Configuration} (hlegal : c.legal = true) (r : Record)
include hlegal

theorem decodeChannel_txFreq_range : inFreqRange (decodeChannel c r).txFreq :=
  (txFrequency_range (Configuration.txDelta_legal hlegal) _ _ _).1

/-- TXF of the RX frequency is TX_FREQ, which is in range. -/
theorem decodeChannel_rxFreq_range : inFreqRange (decodeChannel c r).rxFreq :=
  (rxFrequency_range (Configuration.rxDelta_legal hlegal) _ _ _ _).2.2 (decodeChannel_txFreq_range hlegal r)

end

/-- Settles O27: each operation drives its frequency function, whose range is known; a completed DECODE had a record. -/
theorem frequencyOutputsInRange : Obligations.FrequencyOutputsInRange := by
  intro s t c hc hlegal
  refine ⟨fun f hit hexec hout => ?_, fun f hit hexec hout => ?_, fun d hexec hout => ?_⟩
  · rw [exec_txfreq hc rfl] at hexec
    cases hexec
    cases hout
    exact txFrequency_range (Configuration.txDelta_legal hlegal) _ _ _
  · rw [exec_rxfreq hc rfl] at hexec
    cases hexec
    cases hout
    obtain ⟨hhit, hsplit, -⟩ := rxFrequency_range (Configuration.rxDelta_legal hlegal) s.inputs.b0 s.inputs.b1
      s.inputs.b2 s.inputs.txf
    exact ⟨hhit, hsplit⟩
  · obtain ⟨c', r, hc', -, rfl⟩ := withRecord_next hexec
    cases hc.symm.trans hc'
    cases hout
    exact ⟨decodeChannel_txFreq_range hlegal r, decodeChannel_rxFreq_range hlegal r⟩

/-- The multiplexer drives one of its two labels. -/
theorem labelDriven_followLabel {tx rx : LabelCode} (htx : labelDriven tx) (hrx : labelDriven rx)
    (rxZero flag : Bool) : labelDriven (followLabel rxZero flag tx rx) := by
  unfold followLabel
  split
  · exact htx
  · exact hrx

/-- Settles O54: FOLLOW hands on one of its labels, RXFREQ its TXF or a frequency of its own. -/
theorem handedOnValuesStaySound : Obligations.HandedOnValuesStaySound := by
  intro s c hc hlegal
  refine ⟨fun htx hrx => ⟨_, exec_follow hc, labelDriven_followLabel htx hrx _ _⟩, ?_⟩
  obtain ⟨-, hsplit, hall⟩ := rxFrequency_range (Configuration.rxDelta_legal hlegal) s.inputs.b0 s.inputs.b1
    s.inputs.b2 s.inputs.txf
  exact ⟨_, _, exec_rxfreq hc rfl, hsplit, hall⟩

end Sys2Proof.Machine
end

