-- ==== Sys2Proof/Proofs/ChannelNetwork.lean ====
section
/-! DECODE as the network of the unit operations, path by path, and what the follow and the unknown bank do to its
outputs (45_channel_decode.md). -/

namespace Sys2Proof.Machine

section
variable (c : Configuration) (r : Record)

theorem decodeChannel_txLbl : (decodeChannel c r).txLbl = toneLabel (txIndex r) true true := rfl

theorem decodeChannel_rxStatus : (decodeChannel c r).rxStatus = (rxTone c r).status := rfl

theorem decodeChannel_rxLbl : (decodeChannel c r).rxLbl =
    followLabel (rxTone c r).zero (followFlag c.followSel r) (decodeChannel c r).txLbl (rxTone c r).label := rfl

end

/-! ### The two RX tone paths -/

section
variable {c : Configuration}

theorem rxTone_extractor (h : c.rxPath = .extractor) (r : Record) : rxTone c r = extractorTone r := by
  simp only [rxTone, h]

theorem rxTone_affine (h : c.rxPath = .affine) (r : Record) : rxTone c r =
    affineTone (affineDecode c.bankRegistry (bankKey c.rxBankKeySel r) (r.byte c.affineXSel)) := by
  simp only [rxTone, h]

end

theorem idxValidOf_eq_true_iff {st : Status} : idxValidOf st = true ↔ st ≠ .unknownBank := bne_iff_ne

theorem supOkOf_eq_true_iff {st : Status} : supOkOf st = true ↔ st = .ok := beq_iff_eq

theorem rxZeroOf_eq_true_iff {st : Status} {idx : Option RawIndex} :
    rxZeroOf st idx = true ↔ st = .ok ∧ idx = some 0 := by
  rw [rxZeroOf, Bool.and_eq_true, beq_iff_eq, beq_iff_eq]

theorem affineTone_status (idx : Option RawIndex) (st : Status) : (affineTone (idx, st)).status = st := by
  cases idx <;> rfl

theorem affineTone_zero (idx : Option RawIndex) (st : Status) : (affineTone (idx, st)).zero = rxZeroOf st idx := by
  cases idx <;> rfl

theorem affineTone_label_some (idx : RawIndex) (st : Status) :
    (affineTone (some idx, st)).label = toneLabel idx (idxValidOf st) (supOkOf st) := rfl

/-- The decoder gives no index with UNKNOWN_BANK, or an index with one of the other two statuses (41_affine_decoder.md
R126). -/
theorem affineDecode_cases (registry : List (Key × AffineModel)) (key : Key) (x : Byte) :
    affineDecode registry key x = (none, .unknownBank) ∨
      ∃ idx st, affineDecode registry key x = (some idx, st) ∧ (st = .ok ∨ st = .unmappedIndex) := by
  cases hm : lookup registry key with
  | none => exact .inl (affineDecode_unregistered hm x)
  | some m =>
    refine .inr ?_
    by_cases hx : x = 0
    · exact ⟨0, .ok, hx ▸ affineDecode_zero hm, .inl rfl⟩
    · exact ⟨_, _, affineDecode_of_ne_zero hm hx, bankStatus_cases _ _⟩

/-- On the affine path the label is what TONELBL drives of the decoder's index with the qualifiers its status gives;
where there is no index, IDXVALID is 0, and IDX does not matter. -/
theorem affineTone_label {registry : List (Key × AffineModel)} {key : Key} {x : Byte} {idx : RawIndex}
    {idxValid supOk : Bool} (hidx : ∀ i, (affineDecode registry key x).1 = some i → idx = i)
    (hvalid : idxValid = true ↔ (affineDecode registry key x).2 ≠ .unknownBank)
    (hsup : supOk = true ↔ (affineDecode registry key x).2 = .ok) :
    (affineTone (affineDecode registry key x)).label = toneLabel idx idxValid supOk := by
  obtain hnone | ⟨i, st, hsome, -⟩ := affineDecode_cases registry key x
  · have hinvalid : idxValid = false := Bool.eq_false_iff.mpr fun h => hvalid.mp h (by rw [hnone])
    rw [hnone, hinvalid, toneLabel_no_index]
    rfl
  · rw [hsome] at hidx hvalid hsup
    have hidxValid : idxValid = idxValidOf st := Bool.eq_iff_iff.mpr (hvalid.trans idxValidOf_eq_true_iff.symm)
    have hsupOk : supOk = supOkOf st := Bool.eq_iff_iff.mpr (hsup.trans supOkOf_eq_true_iff.symm)
    rw [hsome, affineTone_label_some, hidx i rfl, hidxValid, hsupOk]

/-! ### The network -/

/-- TONELBL, its result written as a label that is known. -/
theorem exec_tonelbl_eq {t : State} {c : Configuration} {l : LabelCode} (hc : t.config = some c)
    (hl : l = toneLabel t.inputs.idx t.inputs.idxValid t.inputs.supOk) :
    exec .tonelbl t = .next { t with outputs := some (.tonelbl l) } := by
  rw [exec_tonelbl hc, hl]

/-- Settles O29: the five outputs, and the RX label, RX_STATUS and RXZERO of each path, unit by unit. -/
theorem decodeIsTheNetworkOfTheUnits : Obligations.DecodeIsTheNetworkOfTheUnits := by
  intro s c r hc hr
  refine ⟨decodeChannel c r, txIndex r, (rxTone c r).label, (rxTone c r).zero, exec_decode hc hr, exec_txidx hc hr,
    fun t ht hidx hvalid hsup => ?txLabel, fun hpath => ?extractor, fun hpath => ?affine,
    fun t ht hzero hflag htx hrx => ?follow, fun t ht h0 h1 h2 => ?txFreq, fun t ht h0 h1 h2 htxf => ?rxFreq⟩
  case txLabel =>
    exact exec_tonelbl_eq ht (by rw [hidx, hvalid, hsup, decodeChannel_txLbl])
  case extractor =>
    rw [decodeChannel_rxStatus, rxTone_extractor hpath]
    refine ⟨rxIndex r, exec_rxidx hc hr, rfl, rfl, fun t ht hidx hvalid hsup => exec_tonelbl_eq ht ?_⟩
    rw [hidx, hvalid, hsup]
    rfl
  case affine =>
    rw [decodeChannel_rxStatus, rxTone_affine hpath]
    refine ⟨_, (affineDecode c.bankRegistry (bankKey c.rxBankKeySel r) (r.byte c.affineXSel)).1, exec_bankkey hc hr,
      fun t ht hkey hx => exec_affdec ht ?_, ?_, fun t ht hidx hvalid hsup => exec_tonelbl_eq ht ?_⟩
    · rw [hkey, hx, affineTone_status]
    · rw [affineTone_zero, affineTone_status, rxZeroOf_eq_true_iff]
    · rw [affineTone_status] at hvalid hsup
      exact affineTone_label hidx hvalid hsup
  case follow =>
    rw [exec_follow ht, hzero, hflag, htx, hrx, decodeChannel_rxLbl]
    rfl
  case txFreq =>
    exact ⟨_, exec_txfreq ht (by rw [h0, h1, h2, decodeChannel_txFreq])⟩
  case rxFreq =>
    exact ⟨_, exec_rxfreq ht (by rw [h0, h1, h2, htxf, decodeChannel_rxFreq])⟩

/-! ### The unknown bank -/

/-- Settles O30: no model gives no index, hence no label and no follow; the other outputs do not read the path. -/
theorem unknownBankLeavesOtherOutputsValid : Obligations.UnknownBankLeavesOtherOutputsValid := by
  intro s t c r hs hrs ht hrt hpath hkey
  have hbank : lookup c.bankRegistry (bankKey c.rxBankKeySel r) = none := hkey
  have htone : rxTone c r = affineTone (none, .unknownBank) := by
    rw [rxTone_affine hpath, affineDecode_unregistered hbank]
  refine ⟨_, _, exec_decode hs hrs, exec_decode ht hrt, ?_, ?_, rfl, decodeChannel_txFreq_congr r rfl,
    decodeChannel_rxFreq_congr r rfl rfl⟩
  · rw [decodeChannel_rxStatus, htone]
    rfl
  · rw [decodeChannel_rxLbl, htone]
    rfl

/-! ### The follow on the extractor path -/

/-- Index 0 is the six RX bits of A3 at 0. -/
theorem rxIndex_eq_zero_iff (r : Record) : rxIndex r = 0 ↔ r.a3 &&& 0xCF = 0 := by
  have hbits : ∀ a : Byte, index6 (a.getLsbD 6) (a.getLsbD 7) (a.getLsbD 0) (a.getLsbD 1) (a.getLsbD 2)
      (a.getLsbD 3) = 0 ↔ a &&& 0xCF = 0 := by decide +kernel
  exact hbits r.a3

/-- Without RXZERO the position of the follow flag enters no output (43_follow_resolver.md R162). -/
theorem decodeChannel_followSel {c : Configuration} {r : Record} (hzero : (rxTone c r).zero = false)
    (sel : FollowSel) : decodeChannel { c with followSel := sel } r = decodeChannel c r := by
  have htone : rxTone { c with followSel := sel } r = rxTone c r := rfl
  simp only [decodeChannel, htone, hzero, followLabel_no_rxZero, channelTxFreq]

/-- Settles O32: RXZERO is whether the six bits are 0, and it alone lets the flag in. -/
theorem followOnTheExtractorPath : Obligations.FollowOnTheExtractorPath := by
  intro s c r hc hr hpath
  have htone := rxTone_extractor hpath r
  refine ⟨decodeChannel c r, exec_decode hc hr, fun hbits => ?_, fun hbits t sel ht hrt => ?_⟩
  · have hindex := (rxIndex_eq_zero_iff r).mpr hbits
    rw [decodeChannel_rxStatus, decodeChannel_rxLbl, htone, extractorTone, hindex]
    exact ⟨rfl, rfl⟩
  · have hzero : (rxTone c r).zero = false := by
      rw [htone]
      exact beq_eq_false_iff_ne.mpr fun h => hbits ((rxIndex_eq_zero_iff r).mp h)
    rw [exec_decode ht hrt, decodeChannel_followSel hzero]

end Sys2Proof.Machine
end

