-- ==== Sys2Proof/Proofs/Evaluation.lean ====
section
/-! What an operation depends on and what it writes: its frame, where it faults, and that its outcome is a function of
the configuration and of the ports of its own format (10_state.md sections 1 and 4, 60_exceptions.md section 1). -/

namespace Sys2Proof.Machine

/-- Settles O34: a completed operation drives the output ports and writes nothing else. -/
theorem evaluationFrame : Obligations.EvaluationFrame := by
  intro i s t h
  obtain ⟨c, o, -, rfl⟩ := exec_next h
  exact ⟨rfl, rfl, rfl, rfl, rfl, o, rfl⟩

/-! ### The one fault -/

/-- Format F-REC (30_encoding.md R82). -/
abbrev takesRecord (i : Instr) : Prop := i ∈ [Instr.txidx, .rxidx, .bankkey, .decode]

/-- An operation without a record completes under every loaded configuration. -/
theorem exec_completes_of_not_takesRecord {i : Instr} (hi : ¬ takesRecord i) {s : State} {c : Configuration}
    (hc : s.config = some c) : ∃ o, exec i s = .next { s with outputs := some o } := by
  cases i with
  | txidx | rxidx | bankkey | decode => exact absurd (by decide) hi
  | affdec | tonelbl | follow | fbase | txfreq | rxfreq => exact ⟨_, withConfig_some hc _⟩

theorem exec_malformed {i : Instr} (hi : takesRecord i) {s : State} {c : Configuration} (hc : s.config = some c)
    (hlength : s.inputs.record.length ≠ 8) : exec i s = .fault .malformedInput := by
  cases i with
  | txidx | rxidx | bankkey | decode => exact withRecord_malformed hc hlength _
  | affdec | tonelbl | follow | fbase | txfreq | rxfreq => exact absurd hi (by decide)

theorem takesRecord_of_exec_fault {i : Instr} {s : State} {f : Fault} (h : exec i s = .fault f) : takesRecord i := by
  by_contra hi
  obtain ⟨⟨c, hc⟩, -⟩ := exec_fault h
  obtain ⟨o, hnext⟩ := exec_completes_of_not_takesRecord hi hc
  simp [hnext] at h

/-- Settles O41: the three conditions of the fault, and the fault from them. -/
theorem malformedExactlyWhenLengthIsWrong : Obligations.MalformedExactlyWhenLengthIsWrong := by
  intro i s f
  constructor
  · intro h
    obtain ⟨hloaded, hlength⟩ := exec_fault h
    exact ⟨by cases f; rfl, hloaded, takesRecord_of_exec_fault h, hlength⟩
  · rintro ⟨rfl, ⟨c, hc⟩, hi, hlength⟩
    exact exec_malformed hi hc hlength

/-! ### What an outcome depends on -/

/-- The same outcome from another state: the outputs are driven there, and that state keeps the rest. -/
def outcomeAt (t : State) : StepOutcome → StepOutcome
  | .next u    => .next { t with outputs := u.outputs }
  | .fault f   => .fault f
  | .refused q => .refused q

/-- The input ports of the operation's format carry the same values (30_encoding.md R82). -/
def portsAgree (i : Instr) (p q : Inputs) : Prop :=
  match i with
  | .txidx | .rxidx | .bankkey | .decode => p.record = q.record
  | .affdec  => p.key = q.key ∧ p.x = q.x
  | .tonelbl => p.idx = q.idx ∧ p.idxValid = q.idxValid ∧ p.supOk = q.supOk
  | .follow  => p.rxZero = q.rxZero ∧ p.flag = q.flag ∧ p.txLbl = q.txLbl ∧ p.rxLbl = q.rxLbl
  | .fbase   => p.p = q.p ∧ p.q = q.q
  | .txfreq  => p.a0 = q.a0 ∧ p.a1 = q.a1 ∧ p.a2 = q.a2
  | .rxfreq  => p.b0 = q.b0 ∧ p.b1 = q.b1 ∧ p.b2 = q.b2 ∧ p.txf = q.txf

theorem portsAgree_refl (i : Instr) (p : Inputs) : portsAgree i p p := by
  cases i <;> simp [portsAgree]

section
variable {s t : State} (hconfig : s.config = t.config)
include hconfig

theorem withConfig_outcomeAt {out out' : Configuration → Outputs} (hout : ∀ c, out c = out' c) :
    withConfig t (fun c => drive t (out' c)) = outcomeAt t (withConfig s fun c => drive s (out c)) := by
  cases hc : t.config with
  | none => rw [withConfig_none hc, withConfig_none (hconfig.trans hc)]; rfl
  | some c => rw [withConfig_some hc, withConfig_some (hconfig.trans hc), hout]; rfl

theorem withRecord_outcomeAt (hrecord : s.inputs.record = t.inputs.record) (out : Configuration → Record → Outputs) :
    withRecord t out = outcomeAt t (withRecord s out) := by
  cases hc : t.config with
  | none =>
    have hs := hconfig.trans hc
    rw [withRecord, withRecord, withConfig_none hc, withConfig_none hs]
    rfl
  | some c =>
    have hs := hconfig.trans hc
    by_cases hlength : t.inputs.record.length = 8
    · obtain ⟨r, hr⟩ := Record.exists_of_length hlength
      rw [withRecord_bytes hc hr, withRecord_bytes hs (hrecord.trans hr)]
      rfl
    · rw [withRecord_malformed hc hlength, withRecord_malformed hs (hrecord ▸ hlength)]
      rfl

/-- An operation reads the configuration and the ports of its format, and nothing else of the state. -/
theorem exec_outcomeAt {i : Instr} (hports : portsAgree i s.inputs t.inputs) :
    exec i t = outcomeAt t (exec i s) := by
  cases i with
  | txidx | rxidx | bankkey | decode => exact withRecord_outcomeAt hconfig hports _
  | affdec =>
    obtain ⟨hkey, hx⟩ := hports
    exact withConfig_outcomeAt hconfig fun c => by rw [hkey, hx]
  | tonelbl =>
    obtain ⟨hidx, hvalid, hsup⟩ := hports
    exact withConfig_outcomeAt hconfig fun c => by rw [hidx, hvalid, hsup]
  | follow =>
    obtain ⟨hzero, hflag, htx, hrx⟩ := hports
    exact withConfig_outcomeAt hconfig fun c => by rw [hzero, hflag, htx, hrx]
  | fbase =>
    obtain ⟨hp, hq⟩ := hports
    exact withConfig_outcomeAt hconfig fun c => by rw [hp, hq]
  | txfreq =>
    obtain ⟨h0, h1, h2⟩ := hports
    exact withConfig_outcomeAt hconfig fun c => by rw [h0, h1, h2]
  | rxfreq =>
    obtain ⟨h0, h1, h2, htxf⟩ := hports
    exact withConfig_outcomeAt hconfig fun c => by rw [h0, h1, h2, htxf]

end

/-- Equal inputs carry over every way an operation can end. -/
theorem exec_carries_over {i : Instr} {s t : State} (hconfig : s.config = t.config) (hinputs : s.inputs = t.inputs) :
    (∀ o, exec i s = .next { s with outputs := some o } → exec i t = .next { t with outputs := some o }) ∧
    (∀ f, exec i s = .fault f → exec i t = .fault f) ∧ (∀ q, exec i s = .refused q → exec i t = .refused q) := by
  have hports : portsAgree i s.inputs t.inputs := hinputs ▸ portsAgree_refl i s.inputs
  have houtcome := exec_outcomeAt hconfig hports
  refine ⟨fun o h => ?_, fun f h => ?_, fun q h => ?_⟩ <;> (rw [houtcome, h]; rfl)

/-- Settles O35: the outcome carries over in both directions. -/
theorem equalInputsGiveEqualOutcomes : Obligations.EqualInputsGiveEqualOutcomes := by
  intro i s t hconfig hinputs
  obtain ⟨hnext, hfault, hrefused⟩ := exec_carries_over (i := i) hconfig hinputs
  obtain ⟨hnext', hfault', hrefused'⟩ := exec_carries_over (i := i) hconfig.symm hinputs.symm
  exact ⟨fun o => ⟨hnext o, hnext' o⟩, fun f => ⟨hfault f, hfault' f⟩, fun q => ⟨hrefused q, hrefused' q⟩⟩

end Sys2Proof.Machine
end

