-- ==== Sys2Proof/Proofs/OperandPorts.lean ====
section
/-! How operands reach the ports (30_encoding.md section 6): what an output tuple reads as, what a reference stands for,
one rule per operand format, and the operands that are sure to fit. -/

namespace Sys2Proof.Machine

/-! ### The ports of an output tuple -/

/-- The output ports of an operation (30_encoding.md R82). -/
def Outputs.ports : Outputs → List OutPort
  | .txidx _    => [.txi]
  | .rxidx _    => [.rxi]
  | .bankkey _  => [.key]
  | .affdec _ _ => [.idx, .status]
  | .tonelbl _  => [.lbl]
  | .follow _   => [.outLbl]
  | .fbase _    => [.f]
  | .txfreq _ _ => [.f, .deltaHit]
  | .rxfreq _ _ => [.f, .deltaHit]
  | .decode _   => [.txFreq, .rxFreq, .txLbl, .rxLbl, .rxStatus]

theorem Outputs.read_ne_none_iff (o : Outputs) (p : OutPort) : o.read p ≠ none ↔ p ∈ o.ports := by
  cases o <;> cases p <;> simp [Outputs.read, Outputs.ports]

/-- A bare name stands for a port exactly where the tuple has only that one. -/
theorem Outputs.solePort_eq_some_iff (o : Outputs) (p : OutPort) :
    o.solePort = some p ↔ ∀ q, o.read q ≠ none ↔ q = p :=
  calc o.solePort = some p
      ↔ o.ports = [p] := by cases o <;> simp [Outputs.solePort, Outputs.ports]
    _ ↔ o.ports.Perm [p] := List.perm_singleton.symm
    _ ↔ ∀ q, q ∈ o.ports ↔ q ∈ [p] :=
        List.perm_ext_iff_of_nodup (by cases o <;> simp [Outputs.ports]) (List.nodup_singleton p)
    _ ↔ ∀ q, o.read q ≠ none ↔ q = p := by simp only [o.read_ne_none_iff, List.mem_singleton]

/-- A bit reads as 0 or 1. -/
theorem bitValue_eq (b : Bool) : bitValue b = .bits (if b then 1 else 0) := by
  cases b <;> rfl

/-- Settles O52: port by port, and the ports a tuple has. -/
theorem portsReadWhatWasDriven : Obligations.PortsReadWhatWasDriven := by
  refine ⟨⟨rfl, rfl, rfl, rfl⟩, fun v idx k l f st hit r => ?_, fun o p => ⟨?_, o.solePort_eq_some_iff p⟩⟩
  · rw [← bitValue_eq]
    exact ⟨rfl, rfl, rfl, rfl, rfl, fun _ => rfl, rfl, rfl, rfl, rfl, rfl, rfl, rfl, rfl, rfl, rfl, rfl, rfl⟩
  · rw [o.read_ne_none_iff]
    cases o <;> simp [Outputs.ports]

/-! ### What a reference stands for -/

section
variable {results : List (String × EvalResult)} {dest : String} {port : Option OutPort}

/-- The latest result of a name is the one meant. -/
theorem referenced_head (o : Outputs) :
    referenced ((dest, .driven o) :: results) dest port = o.value port := by
  simp [referenced, findResult, EvalResult.outputs]

theorem findResult_cons_of_ne {other : String} (h : dest ≠ other) (r : EvalResult) :
    findResult ((other, r) :: results) dest = findResult results dest := by
  rw [findResult, if_neg h.symm]

/-- The value of a reference and the draws after it, by what the reference stands for. -/
def referenceValue (dest : String) (draws : Nat) : Option PortValue → Except Refusal (OperandValue × Nat)
  | none           => .error (.noSuchResult dest)
  | some (.bits v) => .ok (.bits v, draws)
  | some .undriven => .ok (.bits (Config.undrivenIdx draws).toNat, draws + 1)

theorem resolve_result (draws : Nat) : resolve results draws (.result dest port) =
    referenceValue dest draws (referenced results dest port) := by
  cases hfound : findResult results dest with
  | none => simp only [resolve, referenced, hfound, Option.bind_none, referenceValue]
  | some o =>
    simp only [resolve, referenced, hfound, Option.bind_some]
    cases o.value port with
    | none => rfl
    | some v => cases v <;> rfl

theorem resolve_bits {v : Nat} (h : referenced results dest port = some (.bits v)) (draws : Nat) :
    resolve results draws (.result dest port) = .ok (.bits v, draws) := by
  rw [resolve_result, h, referenceValue]

theorem resolve_undriven (h : referenced results dest port = some .undriven) (draws : Nat) :
    resolve results draws (.result dest port) = .ok (.bits (Config.undrivenIdx draws).toNat, draws + 1) := by
  rw [resolve_result, h, referenceValue]

end

section
variable {results : List (String × EvalResult)} {draws draws' draws'' : Nat} {o : Operand} {os : List Operand}
  {v : OperandValue} {vs : List OperandValue}

theorem resolveAll_cons (ho : resolve results draws o = .ok (v, draws'))
    (hos : resolveAll results draws' os = .ok (vs, draws'')) :
    resolveAll results draws (o :: os) = .ok (v :: vs, draws'') := by
  simp only [resolveAll, ho, hos]

theorem resolveAll_cons_eq_ok (h : resolveAll results draws (o :: os) = .ok (vs, draws'')) :
    ∃ v ws d, resolve results draws o = .ok (v, d) ∧ resolveAll results d os = .ok (ws, draws'') ∧ vs = v :: ws := by
  rw [resolveAll] at h
  cases ho : resolve results draws o with
  | error r => simp [ho] at h
  | ok p =>
    obtain ⟨v, d⟩ := p
    cases hos : resolveAll results d os with
    | error r => simp [ho, hos] at h
    | ok q =>
      obtain ⟨ws, d'⟩ := q
      simp only [ho, hos, Except.ok.injEq, Prod.mk.injEq] at h
      obtain ⟨rfl, rfl⟩ := h
      exact ⟨v, ws, d, rfl, hos, rfl⟩

/-- Only a record operand resolves to a record. -/
theorem resolve_eq_record {bytes : List Byte} (h : resolve results draws o = .ok (.record bytes, draws')) :
    o = .record bytes := by
  cases o with
  | literal v => cases h
  | record bs =>
    cases h
    rfl
  | result dest port =>
    rw [resolve_result] at h
    unfold referenceValue at h
    split at h <;> cases h

theorem mem_of_resolveAll_record {bytes : List Byte} (h : resolveAll results draws os = .ok (vs, draws'))
    (hmem : .record bytes ∈ vs) : .record bytes ∈ os := by
  induction os generalizing draws vs with
  | nil =>
    cases h
    exact absurd hmem List.not_mem_nil
  | cons o os ih =>
    obtain ⟨v, ws, d, ho, hos, rfl⟩ := resolveAll_cons_eq_ok h
    obtain rfl | hmem := List.mem_cons.mp hmem
    · exact resolve_eq_record ho ▸ List.mem_cons_self
    · exact List.mem_cons_of_mem _ (ih hos hmem)

end

/-! ### References as literals -/

theorem resolve_asLiteral (results : List (String × EvalResult)) (draws : Nat) (o : Operand) :
    resolve results draws (asLiteral results o) = resolve results draws o := by
  cases o with
  | literal v => rfl
  | record bytes => rfl
  | result dest port =>
    cases hvalue : referenced results dest port with
    | none => simp only [asLiteral, hvalue]
    | some v =>
      cases v with
      | bits n =>
        simp only [asLiteral, hvalue, resolve_bits hvalue]
        rfl
      | undriven => simp only [asLiteral, hvalue]

theorem resolveAll_asLiteral (results : List (String × EvalResult)) (draws : Nat) (os : List Operand) :
    resolveAll results draws (os.map (asLiteral results)) = resolveAll results draws os := by
  induction os generalizing draws with
  | nil => rfl
  | cons o os ih => simp only [List.map_cons, resolveAll, resolve_asLiteral, ih]

/-- Settles O53: the operands resolve to the same values and draw the same free values. -/
theorem referenceActsAsItsValue : Obligations.ReferenceActsAsItsValue := by
  intro i operands s
  rw [present, resolveAll_asLiteral, present]

/-! ### One rule per operand format -/

section
variable {values : List OperandValue} {ports ports' : Inputs}

theorem driveAff_eq_some_iff : driveAff values ports = some ports' ↔
    ∃ u v key x, values = [u, v] ∧ u.asBits 16 = some key ∧ v.asBits 8 = some x ∧
      ports' = { ports with key := key, x := x } := by
  constructor
  · intro h
    unfold driveAff at h
    split at h
    · simp only [Option.bind_eq_bind, Option.bind_eq_some_iff, Option.pure_def, Option.some.injEq] at h
      obtain ⟨key, hkey, x, hx, rfl⟩ := h
      exact ⟨_, _, key, x, rfl, hkey, hx, rfl⟩
    · cases h
  · rintro ⟨u, v, key, x, rfl, hkey, hx, rfl⟩
    simp [driveAff, hkey, hx]

theorem driveLbl_eq_some_iff : driveLbl values ports = some ports' ↔
    ∃ u v w idx valid sup, values = [u, v, w] ∧ u.asBits 6 = some idx ∧ v.asBit = some valid ∧ w.asBit = some sup ∧
      ports' = { ports with idx := idx, idxValid := valid, supOk := sup } := by
  constructor
  · intro h
    unfold driveLbl at h
    split at h
    · simp only [Option.bind_eq_bind, Option.bind_eq_some_iff, Option.pure_def, Option.some.injEq] at h
      obtain ⟨idx, hidx, valid, hvalid, sup, hsup, rfl⟩ := h
      exact ⟨_, _, _, idx, valid, sup, rfl, hidx, hvalid, hsup, rfl⟩
    · cases h
  · rintro ⟨u, v, w, idx, valid, sup, rfl, hidx, hvalid, hsup, rfl⟩
    simp [driveLbl, hidx, hvalid, hsup]

theorem driveFol_eq_some_iff : driveFol values ports = some ports' ↔
    ∃ u v w z zero flag tx rx, values = [u, v, w, z] ∧ u.asBit = some zero ∧ v.asBit = some flag ∧
      w.asBits 7 = some tx ∧ z.asBits 7 = some rx ∧
      ports' = { ports with rxZero := zero, flag := flag, txLbl := tx, rxLbl := rx } := by
  constructor
  · intro h
    unfold driveFol at h
    split at h
    · simp only [Option.bind_eq_bind, Option.bind_eq_some_iff, Option.pure_def, Option.some.injEq] at h
      obtain ⟨zero, hzero, flag, hflag, tx, htx, rx, hrx, rfl⟩ := h
      exact ⟨_, _, _, _, zero, flag, tx, rx, rfl, hzero, hflag, htx, hrx, rfl⟩
    · cases h
  · rintro ⟨u, v, w, z, zero, flag, tx, rx, rfl, hzero, hflag, htx, hrx, rfl⟩
    simp [driveFol, hzero, hflag, htx, hrx]

theorem driveFb_eq_some_iff : driveFb values ports = some ports' ↔
    ∃ u v p q, values = [u, v] ∧ u.asBits 8 = some p ∧ v.asBits 8 = some q ∧
      ports' = { ports with p := p, q := q } := by
  constructor
  · intro h
    unfold driveFb at h
    split at h
    · simp only [Option.bind_eq_bind, Option.bind_eq_some_iff, Option.pure_def, Option.some.injEq] at h
      obtain ⟨p, hp, q, hq, rfl⟩ := h
      exact ⟨_, _, p, q, rfl, hp, hq, rfl⟩
    · cases h
  · rintro ⟨u, v, p, q, rfl, hp, hq, rfl⟩
    simp [driveFb, hp, hq]

theorem driveTxf_eq_some_iff : driveTxf values ports = some ports' ↔
    ∃ u v w x y z, values = [u, v, w] ∧ u.asBits 8 = some x ∧ v.asBits 8 = some y ∧ w.asBits 8 = some z ∧
      ports' = { ports with a0 := x, a1 := y, a2 := z } := by
  constructor
  · intro h
    unfold driveTxf at h
    split at h
    · simp only [Option.bind_eq_bind, Option.bind_eq_some_iff, Option.pure_def, Option.some.injEq] at h
      obtain ⟨x, hx, y, hy, z, hz, rfl⟩ := h
      exact ⟨_, _, _, x, y, z, rfl, hx, hy, hz, rfl⟩
    · cases h
  · rintro ⟨u, v, w, x, y, z, rfl, hx, hy, hz, rfl⟩
    simp [driveTxf, hx, hy, hz]

theorem driveRxf_eq_some_iff : driveRxf values ports = some ports' ↔
    ∃ u v w t x y z f, values = [u, v, w, t] ∧ u.asBits 8 = some x ∧ v.asBits 8 = some y ∧ w.asBits 8 = some z ∧
      t.asBits 32 = some f ∧ ports' = { ports with b0 := x, b1 := y, b2 := z, txf := f } := by
  constructor
  · intro h
    unfold driveRxf at h
    split at h
    · simp only [Option.bind_eq_bind, Option.bind_eq_some_iff, Option.pure_def, Option.some.injEq] at h
      obtain ⟨x, hx, y, hy, z, hz, f, hf, rfl⟩ := h
      exact ⟨_, _, _, _, x, y, z, f, rfl, hx, hy, hz, hf, rfl⟩
    · cases h
  · rintro ⟨u, v, w, t, x, y, z, f, rfl, hx, hy, hz, hf, rfl⟩
    simp [driveRxf, hx, hy, hz, hf]

/-- Format F-REC completes `driveRec_eq_some` by its other direction. -/
theorem driveRec_of_asRecord {v : OperandValue} {bytes : List Byte} (h : v.asRecord = some bytes) :
    driveRec [v] ports = some { ports with record := bytes } := by
  simp [driveRec, h]

theorem drivePorts_of_takesRecord {i : Instr} (hi : takesRecord i) :
    drivePorts i values ports = driveRec values ports := by
  cases i with
  | txidx | rxidx | bankkey | decode => rfl
  | affdec | tonelbl | follow | fbase | txfreq | rxfreq => exact absurd hi (by decide)

end

/-- Operands whose values are of the format are presented. -/
theorem present_of_values {i : Instr} {operands : List Operand} {s : State} {values : List OperandValue} {draws : Nat}
    {ports : Inputs} (hvalues : resolveAll s.results s.draws operands = .ok (values, draws))
    (hports : drivePorts i values s.inputs = some ports) :
    present i operands s = .ok { s with inputs := ports, draws := draws } := by
  simp only [present, hvalues, hports]

/-! ### Literals -/

/-- A record port takes the 64-bit value of a record as its bytes (30_encoding.md R70). -/
theorem asRecord_word (r : Record) : OperandValue.asRecord (.bits r.word.toNat) = some r.bytes := by
  rw [OperandValue.asRecord, if_pos r.word.isLt, BitVec.ofNat_toNat, BitVec.setWidth_eq, bytesOfWord_word]

/-- Settles O44, one format per clause. -/
theorem literalOperandsReachTheirPorts : Obligations.LiteralOperandsReachTheirPorts := by
  intro s bytes k x y z i v g t u f hk hx hy hz hi hv hg ht hu hf
  refine ⟨fun op hop => ⟨?_, fun r => ?_⟩, ?_, ?_, ?_, ?_, ?_, ?_⟩
  · exact present_of_values rfl ((drivePorts_of_takesRecord hop).trans (driveRec_of_asRecord rfl))
  · exact present_of_values rfl ((drivePorts_of_takesRecord hop).trans (driveRec_of_asRecord (asRecord_word r)))
  · exact present_of_values rfl (driveAff_eq_some_iff.mpr ⟨_, _, _, _, rfl, asBits_of_lt hk, asBits_of_lt hx, rfl⟩)
  · exact present_of_values rfl
      (driveLbl_eq_some_iff.mpr ⟨_, _, _, _, _, _, rfl, asBits_of_lt hi, asBit_of_lt hv, asBit_of_lt hg, rfl⟩)
  · exact present_of_values rfl (driveFol_eq_some_iff.mpr
      ⟨_, _, _, _, _, _, _, _, rfl, asBit_of_lt hv, asBit_of_lt hg, asBits_of_lt ht, asBits_of_lt hu, rfl⟩)
  · exact present_of_values rfl (driveFb_eq_some_iff.mpr ⟨_, _, _, _, rfl, asBits_of_lt hx, asBits_of_lt hy, rfl⟩)
  · exact present_of_values rfl (driveTxf_eq_some_iff.mpr
      ⟨_, _, _, _, _, _, rfl, asBits_of_lt hx, asBits_of_lt hy, asBits_of_lt hz, rfl⟩)
  · exact present_of_values rfl (driveRxf_eq_some_iff.mpr
      ⟨_, _, _, _, _, _, _, _, rfl, asBits_of_lt hx, asBits_of_lt hy, asBits_of_lt hz, asBits_of_lt hf, rfl⟩)

/-! ### Operands that fit -/

/-- A value fits a place of an operand format. -/
def OperandValue.Fits : OperandValue → OperandKind → Prop
  | .bits v,       .bits w => v < 2 ^ w
  | .bits v,       .record => v < 2 ^ 64
  | .record bytes, .record => bytes.length = 8
  | .record _,     .bits _ => False

theorem bytesOfWord_length (w : BitVec 64) : (bytesOfWord w).length = 8 := rfl

section
variable {v : OperandValue}

theorem OperandValue.Fits.asBits {w : Nat} (h : v.Fits (.bits w)) : ∃ b, v.asBits w = some b := by
  cases v with
  | bits n => exact ⟨_, asBits_of_lt h⟩
  | record bytes => exact h.elim

theorem OperandValue.Fits.asBit (h : v.Fits (.bits 1)) : ∃ b, v.asBit = some b := by
  obtain ⟨b, hb⟩ := h.asBits
  exact ⟨_, by rw [OperandValue.asBit, hb, Option.map_some]⟩

/-- A value on the record port is 8 bytes, unless it was a byte sequence of another length. -/
theorem asRecord_length {bytes : List Byte} (h : v.asRecord = some bytes)
    (hrecord : ∀ bs, v = .record bs → bs.length = 8) : bytes.length = 8 := by
  cases v with
  | bits n =>
    by_cases hn : n < 2 ^ 64
    · rw [OperandValue.asRecord, if_pos hn] at h
      cases h
      exact bytesOfWord_length _
    · rw [OperandValue.asRecord, if_neg hn] at h
      cases h
  | record bs =>
    cases h
    exact hrecord _ rfl

theorem OperandValue.Fits.asRecord (h : v.Fits .record) : ∃ bytes, v.asRecord = some bytes ∧ bytes.length = 8 := by
  cases v with
  | bits n => exact ⟨_, if_pos h, bytesOfWord_length _⟩
  | record bytes => exact ⟨bytes, rfl, h⟩

end

/-- Values that fit the format of an operation reach its ports. -/
theorem drivePorts_of_fits {i : Instr} {values : List OperandValue} (h : List.Forall₂ OperandValue.Fits values i.format)
    (ports : Inputs) :
    ∃ ports', drivePorts i values ports = some ports' ∧ (takesRecord i → ports'.record.length = 8) := by
  cases i with
  | txidx | rxidx | bankkey | decode =>
    match values, h with
    | [v], .cons hv .nil =>
      obtain ⟨bytes, hbytes, hlength⟩ := hv.asRecord
      exact ⟨_, driveRec_of_asRecord hbytes, fun _ => hlength⟩
  | affdec =>
    match values, h with
    | [_, _], .cons hkey (.cons hx .nil) =>
      obtain ⟨key, hkey⟩ := hkey.asBits
      obtain ⟨x, hx⟩ := hx.asBits
      exact ⟨_, driveAff_eq_some_iff.mpr ⟨_, _, _, _, rfl, hkey, hx, rfl⟩, fun hi => absurd hi (by decide)⟩
  | tonelbl =>
    match values, h with
    | [_, _, _], .cons hidx (.cons hvalid (.cons hsup .nil)) =>
      obtain ⟨idx, hidx⟩ := hidx.asBits
      obtain ⟨valid, hvalid⟩ := hvalid.asBit
      obtain ⟨sup, hsup⟩ := hsup.asBit
      exact ⟨_, driveLbl_eq_some_iff.mpr ⟨_, _, _, _, _, _, rfl, hidx, hvalid, hsup, rfl⟩,
        fun hi => absurd hi (by decide)⟩
  | follow =>
    match values, h with
    | [_, _, _, _], .cons hzero (.cons hflag (.cons htx (.cons hrx .nil))) =>
      obtain ⟨zero, hzero⟩ := hzero.asBit
      obtain ⟨flag, hflag⟩ := hflag.asBit
      obtain ⟨tx, htx⟩ := htx.asBits
      obtain ⟨rx, hrx⟩ := hrx.asBits
      exact ⟨_, driveFol_eq_some_iff.mpr ⟨_, _, _, _, _, _, _, _, rfl, hzero, hflag, htx, hrx, rfl⟩,
        fun hi => absurd hi (by decide)⟩
  | fbase =>
    match values, h with
    | [_, _], .cons hp (.cons hq .nil) =>
      obtain ⟨p, hp⟩ := hp.asBits
      obtain ⟨q, hq⟩ := hq.asBits
      exact ⟨_, driveFb_eq_some_iff.mpr ⟨_, _, _, _, rfl, hp, hq, rfl⟩, fun hi => absurd hi (by decide)⟩
  | txfreq =>
    match values, h with
    | [_, _, _], .cons hx (.cons hy (.cons hz .nil)) =>
      obtain ⟨x, hx⟩ := hx.asBits
      obtain ⟨y, hy⟩ := hy.asBits
      obtain ⟨z, hz⟩ := hz.asBits
      exact ⟨_, driveTxf_eq_some_iff.mpr ⟨_, _, _, _, _, _, rfl, hx, hy, hz, rfl⟩, fun hi => absurd hi (by decide)⟩
  | rxfreq =>
    match values, h with
    | [_, _, _, _], .cons hx (.cons hy (.cons hz (.cons hf .nil))) =>
      obtain ⟨x, hx⟩ := hx.asBits
      obtain ⟨y, hy⟩ := hy.asBits
      obtain ⟨z, hz⟩ := hz.asBits
      obtain ⟨f, hf⟩ := hf.asBits
      exact ⟨_, driveRxf_eq_some_iff.mpr ⟨_, _, _, _, _, _, _, _, rfl, hx, hy, hz, hf, rfl⟩,
        fun hi => absurd hi (by decide)⟩

section
variable {results : List (String × EvalResult)}

/-- A reference that is ready stands for a value, which fits its place. -/
theorem exists_referenced_of_ready {dest : String} {port : Option OutPort} {kind : OperandKind}
    (h : operandReady results (.result dest port) kind = true) :
    ∃ v, referenced results dest port = some v ∧ v.fits kind = true := by
  cases hvalue : referenced results dest port with
  | none => simp [operandReady, hvalue] at h
  | some v => exact ⟨v, rfl, by simpa [operandReady, hvalue] using h⟩

/-- Whatever the 6-bit IDX wires carry fits a place of 6 bits or more. -/
theorem fits_of_undriven {kind : OperandKind} (h : PortValue.undriven.fits kind = true) (v : RawIndex) :
    (OperandValue.bits v.toNat).Fits kind := by
  cases kind with
  | record => exact v.isLt.trans (by decide)
  | bits w => exact v.isLt.trans_le (Nat.pow_le_pow_right (by decide) (of_decide_eq_true h))

theorem fits_of_bits {n : Nat} {kind : OperandKind} (h : (PortValue.bits n).fits kind = true) :
    (OperandValue.bits n).Fits kind := by
  cases kind with
  | record => exact (of_decide_eq_true h : n < 2 ^ 64)
  | bits w => exact (of_decide_eq_true h : n < 2 ^ w)

/-- A well-formed operand that is ready resolves to a value that fits its place. -/
theorem resolve_ready {o : Operand} {kind : OperandKind} (hwf : o.wellFormed kind = true)
    (hready : operandReady results o kind = true) (draws : Nat) :
    ∃ v, resolve results draws o = .ok (v, draws + operandDraws results o) ∧ v.Fits kind := by
  cases o with
  | literal n =>
    refine ⟨_, rfl, ?_⟩
    cases kind with
    | record => exact (of_decide_eq_true hwf : n < 2 ^ 64)
    | bits w => exact (of_decide_eq_true hwf : n < 2 ^ w)
  | record bytes =>
    cases kind with
    | record => exact ⟨_, rfl, beq_iff_eq.mp hwf⟩
    | bits w => cases hwf
  | result dest port =>
    obtain ⟨v, hvalue, hfits⟩ := exists_referenced_of_ready hready
    cases v with
    | bits n =>
      refine ⟨_, ?_, fits_of_bits hfits⟩
      rw [resolve_bits hvalue]
      simp [operandDraws, hvalue]
    | undriven =>
      refine ⟨_, ?_, fits_of_undriven hfits (Config.undrivenIdx draws)⟩
      rw [resolve_undriven hvalue]
      simp [operandDraws, hvalue]

theorem resolveAll_ready {os : List Operand} {kinds : List OperandKind}
    (h : List.Forall₂ (fun o kind => o.wellFormed kind = true ∧ operandReady results o kind = true) os kinds)
    (draws : Nat) :
    ∃ vs, resolveAll results draws os = .ok (vs, draws + (os.map (operandDraws results)).sum) ∧
      List.Forall₂ OperandValue.Fits vs kinds := by
  induction h generalizing draws with
  | nil => exact ⟨[], rfl, .nil⟩
  | @cons o kind os kinds ho _ ih =>
    obtain ⟨v, hv, hfits⟩ := resolve_ready ho.1 ho.2 draws
    obtain ⟨vs, hvs, hrest⟩ := ih (draws + operandDraws results o)
    refine ⟨v :: vs, ?_, .cons hfits hrest⟩
    rw [List.map_cons, List.sum_cons, ← Nat.add_assoc]
    exact resolveAll_cons hv hvs

end

/-! ### Operands presented in another state -/

/-- Values of the format reach the ports of the format whatever the ports carried before, and those ports then agree. -/
theorem drivePorts_agree {i : Instr} {values : List OperandValue} {p p' : Inputs} (h : drivePorts i values p = some p')
    (q : Inputs) : ∃ q', drivePorts i values q = some q' ∧ portsAgree i p' q' := by
  cases i with
  | txidx | rxidx | bankkey | decode =>
    obtain ⟨v, bytes, rfl, hbytes, rfl⟩ := driveRec_eq_some h
    exact ⟨_, driveRec_of_asRecord hbytes, rfl⟩
  | affdec =>
    obtain ⟨_, _, _, _, rfl, hkey, hx, rfl⟩ := driveAff_eq_some_iff.mp h
    exact ⟨_, driveAff_eq_some_iff.mpr ⟨_, _, _, _, rfl, hkey, hx, rfl⟩, rfl, rfl⟩
  | tonelbl =>
    obtain ⟨_, _, _, _, _, _, rfl, hidx, hvalid, hsup, rfl⟩ := driveLbl_eq_some_iff.mp h
    exact ⟨_, driveLbl_eq_some_iff.mpr ⟨_, _, _, _, _, _, rfl, hidx, hvalid, hsup, rfl⟩, rfl, rfl, rfl⟩
  | follow =>
    obtain ⟨_, _, _, _, _, _, _, _, rfl, hzero, hflag, htx, hrx, rfl⟩ := driveFol_eq_some_iff.mp h
    exact ⟨_, driveFol_eq_some_iff.mpr ⟨_, _, _, _, _, _, _, _, rfl, hzero, hflag, htx, hrx, rfl⟩, rfl, rfl, rfl, rfl⟩
  | fbase =>
    obtain ⟨_, _, _, _, rfl, hp, hq, rfl⟩ := driveFb_eq_some_iff.mp h
    exact ⟨_, driveFb_eq_some_iff.mpr ⟨_, _, _, _, rfl, hp, hq, rfl⟩, rfl, rfl⟩
  | txfreq =>
    obtain ⟨_, _, _, _, _, _, rfl, hx, hy, hz, rfl⟩ := driveTxf_eq_some_iff.mp h
    exact ⟨_, driveTxf_eq_some_iff.mpr ⟨_, _, _, _, _, _, rfl, hx, hy, hz, rfl⟩, rfl, rfl, rfl⟩
  | rxfreq =>
    obtain ⟨_, _, _, _, _, _, _, _, rfl, hx, hy, hz, hf, rfl⟩ := driveRxf_eq_some_iff.mp h
    exact ⟨_, driveRxf_eq_some_iff.mpr ⟨_, _, _, _, _, _, _, _, rfl, hx, hy, hz, hf, rfl⟩, rfl, rfl, rfl, rfl⟩

section
variable {results : List (String × EvalResult)} {other : String} {os : List Operand}

/-- References to driven ports have values, and draw no free value. -/
theorem resolveAll_of_independent (h : independentOf results other os) :
    ∃ values, ∀ draws, resolveAll results draws os = .ok (values, draws) := by
  induction os with
  | nil => exact ⟨[], fun _ => rfl⟩
  | cons o os ih =>
    obtain ⟨vs, hvs⟩ := ih fun dest port hmem => h dest port (List.mem_cons_of_mem _ hmem)
    have ho : ∃ v, ∀ draws, resolve results draws o = .ok (v, draws) := by
      cases o with
      | literal n => exact ⟨_, fun _ => rfl⟩
      | record bytes => exact ⟨_, fun _ => rfl⟩
      | result dest port =>
        obtain ⟨-, v, hv⟩ := h dest port List.mem_cons_self
        exact ⟨_, resolve_bits hv⟩
    obtain ⟨v, hv⟩ := ho
    exact ⟨v :: vs, fun draws => resolveAll_cons (hv draws) (hvs draws)⟩

/-- A result of another name changes no reference. -/
theorem resolveAll_cons_of_independent (h : independentOf results other os) (r : EvalResult) :
    ∀ draws, resolveAll ((other, r) :: results) draws os = resolveAll results draws os := by
  induction os with
  | nil => exact fun _ => rfl
  | cons o os ih =>
    intro draws
    have hos := ih fun dest port hmem => h dest port (List.mem_cons_of_mem _ hmem)
    have ho : resolve ((other, r) :: results) draws o = resolve results draws o := by
      cases o with
      | literal n => rfl
      | record bytes => rfl
      | result dest port =>
        obtain ⟨hne, -⟩ := h dest port List.mem_cons_self
        rw [resolve_result, resolve_result, referenced, referenced, findResult_cons_of_ne hne]
    simp only [resolveAll, ho, hos]

end

end Sys2Proof.Machine
end

