-- ==== Sys2Proof/Proofs/LineText.lean ====
section
/-! Reading back the text of a line (30_encoding.md R88): digits, records, names, operands, the pieces between commas,
and then the whole line. -/

namespace Sys2Proof

/-! ### Digits and record literals -/

theorem hexValue_hexDigit : ∀ n < 16, hexValue (hexDigit n) = some n := by decide

theorem hexDigit_ne : ∀ n < 16, hexDigit n ≠ ' ' ∧ hexDigit n ≠ ',' ∧ hexDigit n ≠ '_' := by decide

theorem exists_digit_of_mem_hexText {digits v : Nat} {ch : Char} (h : ch ∈ hexText digits v) :
    ∃ n < 16, ch = hexDigit n := by
  induction digits generalizing v with
  | zero => simp [hexText] at h
  | succ d ih =>
    obtain h | h := List.mem_append.mp h
    · exact ih h
    · exact ⟨v % 16, Nat.mod_lt _ (by decide), List.mem_singleton.mp h⟩

theorem hexText_ne_nil {digits : Nat} (h : 0 < digits) (v : Nat) : hexText digits v ≠ [] := by
  obtain ⟨d, rfl⟩ := Nat.exists_eq_add_of_lt h
  simp [hexText]

/-- Reading goes digit by digit from the front, writing from the back, so the value already read is carried along. -/
theorem readHexFrom_hexText {digits v : Nat} (h : v < 16 ^ digits) (acc : Nat) (rest : List Char) :
    readHexFrom acc (hexText digits v ++ rest) = readHexFrom (acc * 16 ^ digits + v) rest := by
  induction digits generalizing v rest with
  | zero =>
    obtain rfl : v = 0 := by simpa using h
    simp [hexText]
  | succ d ih =>
    have hhigh : v / 16 < 16 ^ d := Nat.div_lt_of_lt_mul (by rwa [Nat.mul_comm, ← Nat.pow_succ])
    have hvalue : 16 * (acc * 16 ^ d + v / 16) + v % 16 = acc * 16 ^ (d + 1) + v := by
      rw [Nat.pow_succ, ← Nat.mul_assoc]
      omega
    rw [hexText, List.append_assoc, ih hhigh, List.singleton_append, readHexFrom,
      hexValue_hexDigit _ (Nat.mod_lt _ (by decide)), ← hvalue]

theorem readHex_hexText {digits v : Nat} (hpos : 0 < digits) (h : v < 16 ^ digits) :
    readHex (hexText digits v) = some v := by
  have hfrom : readHexFrom 0 (hexText digits v) = some v := by
    simpa [readHexFrom] using readHexFrom_hexText h 0 []
  cases htext : hexText digits v with
  | nil => exact absurd htext (hexText_ne_nil hpos v)
  | cons ch t => rwa [htext] at hfrom

/-- The digits of a byte sequence, two for each byte. -/
def bytesText (bytes : List Byte) : List Char := bytes.flatMap fun b => hexText 2 b.toNat

theorem bytesText_cons (b : Byte) (bs : List Byte) :
    bytesText (b :: bs) = hexDigit (b.toNat / 16 % 16) :: hexDigit (b.toNat % 16) :: bytesText bs := rfl

theorem bytesText_length (bytes : List Byte) : (bytesText bytes).length = 2 * bytes.length := by
  induction bytes with
  | nil => rfl
  | cons b bs ih => simp only [bytesText_cons, List.length_cons, ih]; omega

theorem readBytes_bytesText (bytes : List Byte) : readBytes (bytesText bytes) = some bytes := by
  induction bytes with
  | nil => rfl
  | cons b bs ih =>
    have hbyte : 16 * (b.toNat / 16 % 16) + b.toNat % 16 = b.toNat := by have := b.isLt; omega
    simp only [bytesText_cons, readBytes, hexValue_hexDigit _ (Nat.mod_lt _ (by decide)), ih, hbyte,
      BitVec.ofNat_toNat, BitVec.setWidth_eq]

theorem exists_digit_of_mem_bytesText {bytes : List Byte} {ch : Char} (h : ch ∈ bytesText bytes) :
    ∃ n < 16, ch = hexDigit n := by
  obtain ⟨b, -, hch⟩ := List.mem_flatMap.mp h
  exact exists_digit_of_mem_hexText hch

theorem dropSplits_of_not_mem {cs : List Char} (h : '_' ∉ cs) : dropSplits cs = some cs := by
  induction cs with
  | nil => rfl
  | cons ch t ih =>
    obtain ⟨hch, ht⟩ := List.ne_and_not_mem_of_not_mem_cons h
    simp [dropSplits, ih ht, Ne.symm hch]

theorem readRecord_bytesText {bytes : List Byte} (h : bytes.length = 8) :
    readRecord (bytesText bytes) = some bytes := by
  have hsplit : '_' ∉ bytesText bytes := fun hmem => by
    obtain ⟨n, hn, hch⟩ := exists_digit_of_mem_bytesText hmem
    exact (hexDigit_ne n hn).2.2 hch.symm
  have hhead : (bytesText bytes).head? ≠ some '_' := fun hsome => hsplit (List.mem_of_head? hsome)
  simp [readRecord, hhead, dropSplits_of_not_mem hsplit, bytesText_length, h, readBytes_bytesText]

/-! ### Text around a character -/

section
variable {ch : Char} {t : List Char}

theorem before_append (h : ch ∉ t) (u : List Char) : before ch (t ++ ch :: u) = t := by
  have hall : ∀ x ∈ t, (x != ch) = true := fun x hx => by simpa using fun hxc : x = ch => h (hxc ▸ hx)
  rw [before, List.takeWhile_append_of_pos hall]
  simp

theorem after_append (h : ch ∉ t) (u : List Char) : after ch (t ++ ch :: u) = some u := by
  have hall : ∀ x ∈ t, (x != ch) = true := fun x hx => by simpa using fun hxc : x = ch => h (hxc ▸ hx)
  rw [after, List.dropWhile_append_of_pos hall]
  simp

theorem before_of_not_mem (h : ch ∉ t) : before ch t = t :=
  List.takeWhile_eq_self_iff.mpr fun x hx => by simpa using fun hxc : x = ch => h (hxc ▸ hx)

theorem after_of_not_mem (h : ch ∉ t) : after ch t = none := by
  have hdrop : t.dropWhile (· != ch) = [] :=
    List.dropWhile_eq_nil_iff.mpr fun x hx => by simpa using fun hxc : x = ch => h (hxc ▸ hx)
  rw [after, hdrop]
  rfl

end

/-- Text that begins and ends with another character than a space is not trimmed. -/
theorem trim_eq_self {cs : List Char} (hhead : cs.head? ≠ some ' ') (hlast : cs.getLast? ≠ some ' ') :
    trim cs = cs := by
  have hdrop {l : List Char} (h : l.head? ≠ some ' ') : l.dropWhile (· == ' ') = l := by
    cases l with
    | nil => rfl
    | cons x t => simpa using h
  rw [trim, hdrop hhead, hdrop (by rwa [List.head?_reverse]), List.reverse_reverse]

theorem trim_space_cons (cs : List Char) : trim (' ' :: cs) = trim cs := rfl

theorem trim_append_space {cs : List Char} (hspace : ' ' ∉ cs) : trim (cs ++ [' ']) = cs := by
  cases cs with
  | nil => rfl
  | cons x t =>
    have hx : x ≠ ' ' := fun h => hspace (h ▸ List.mem_cons_self)
    have hkeep : trim (x :: t) = x :: t := trim_eq_self (fun h => hspace (List.mem_of_head? h))
      (fun h => hspace (List.mem_of_getLast? h))
    simpa [trim, hx] using hkeep

/-- A piece of a line between commas: some text without a space or a comma. -/
structure IsPiece (t : List Char) : Prop where
  ne_nil   : t ≠ []
  no_space : ' ' ∉ t
  no_comma : ',' ∉ t

theorem IsPiece.trim_eq {t : List Char} (h : IsPiece t) : trim t = t :=
  trim_eq_self (fun hh => h.no_space (List.mem_of_head? hh)) (fun hl => h.no_space (List.mem_of_getLast? hl))

/-- Digits carry on a piece. -/
theorem isPiece_append_digits {pre digits : List Char} (hpre : IsPiece pre)
    (hdigits : ∀ ch ∈ digits, ∃ n < 16, ch = hexDigit n) : IsPiece (pre ++ digits) := by
  obtain ⟨hne, hspace, hcomma⟩ := hpre
  have hdigit (ch : Char) (hmem : ch ∈ digits) : ch ≠ ' ' ∧ ch ≠ ',' := by
    obtain ⟨n, hn, rfl⟩ := hdigits ch hmem
    obtain ⟨hs, hc, -⟩ := hexDigit_ne n hn
    exact ⟨hs, hc⟩
  refine ⟨by simp [hne], fun hmem => ?_, fun hmem => ?_⟩
  · exact (List.mem_append.mp hmem).elim hspace fun hd => (hdigit _ hd).1 rfl
  · exact (List.mem_append.mp hmem).elim hcomma fun hd => (hdigit _ hd).2 rfl

/-! ### Names and operands -/

/-- No character of a name delimits one. -/
theorem isNameChar_ne {ch : Char} (h : isNameChar ch = true) : ch ≠ ' ' ∧ ch ≠ ',' ∧ ch ≠ '.' ∧ ch ≠ '=' := by
  refine ⟨?_, ?_, ?_, ?_⟩ <;> (rintro rfl; exact absurd h (by decide))

/-- A name begins with a letter and holds name characters only. -/
theorem isName_cases {s : String} (h : isName s = true) :
    ∃ ch rest, s.toList = ch :: rest ∧ ch.isAlpha = true ∧ ∀ x ∈ s.toList, isNameChar x = true := by
  unfold isName at h
  split at h
  · cases h
  · rename_i ch rest hs
    obtain ⟨hch, hrest⟩ := Bool.and_eq_true_iff.mp h
    refine ⟨ch, rest, hs, hch, ?_⟩
    rw [hs, List.forall_mem_cons]
    exact ⟨by simp [isNameChar, Char.isAlphanum, hch], List.all_eq_true.mp hrest⟩

theorem isName_not_mem {s : String} (h : isName s = true) :
    ' ' ∉ s.toList ∧ ',' ∉ s.toList ∧ '.' ∉ s.toList ∧ '=' ∉ s.toList := by
  obtain ⟨-, -, -, -, hall⟩ := isName_cases h
  exact ⟨fun hm => (isNameChar_ne (hall _ hm)).1 rfl, fun hm => (isNameChar_ne (hall _ hm)).2.1 rfl,
    fun hm => (isNameChar_ne (hall _ hm)).2.2.1 rfl, fun hm => (isNameChar_ne (hall _ hm)).2.2.2 rfl⟩

theorem readName_toList {s : String} (h : isName s = true) : readName s.toList = some s := by
  simp [readName, h]

theorem OutPort.ofName_name (p : OutPort) : OutPort.ofName p.name.toList = some p := by
  cases p <;> decide

theorem OutPort.name_not_mem (p : OutPort) : ' ' ∉ p.name.toList ∧ ',' ∉ p.name.toList ∧ '=' ∉ p.name.toList := by
  cases p <;> decide

/-- Text with no `=` in it that does not begin with `0` is read as a reference. -/
theorem readOperand_eq_readResult {ch : Char} {t : List Char} (hzero : ch ≠ '0') (heq : '=' ∉ ch :: t) :
    readOperand (ch :: t) = readResult (ch :: t) := by
  unfold readOperand
  split
  · simp_all
  · simp_all
  · rfl

theorem readOperand_name {dest : String} (h : isName dest = true) :
    readOperand dest.toList = some (.result dest none) := by
  obtain ⟨ch, rest, hdest, hch, -⟩ := isName_cases h
  obtain ⟨-, -, hdot, heq⟩ := isName_not_mem h
  have hzero : ch ≠ '0' := by rintro rfl; exact absurd hch (by decide)
  have hread : readResult dest.toList = some (.result dest none) := by
    simp only [readResult, before_of_not_mem hdot, after_of_not_mem hdot, readName_toList h]
  rw [hdest] at heq hread ⊢
  rw [readOperand_eq_readResult hzero heq, hread]

theorem readOperand_port {dest : String} (h : isName dest = true) (p : OutPort) :
    readOperand (dest.toList ++ '.' :: p.name.toList) = some (.result dest (some p)) := by
  obtain ⟨ch, rest, hdest, hch, -⟩ := isName_cases h
  obtain ⟨-, -, hdot, heq⟩ := isName_not_mem h
  have hzero : ch ≠ '0' := by rintro rfl; exact absurd hch (by decide)
  have hnone : '=' ∉ dest.toList ++ '.' :: p.name.toList := by simp [heq, p.name_not_mem.2.2]
  have hread : readResult (dest.toList ++ '.' :: p.name.toList) = some (.result dest (some p)) := by
    simp only [readResult, before_append hdot, after_append hdot, readName_toList h, p.ofName_name, Option.map_some]
  rw [hdest, List.cons_append] at hnone hread ⊢
  rw [readOperand_eq_readResult hzero hnone, hread]

/-- A literal of a port of w bits fits the digits it is written with. -/
theorem two_pow_le_digits (w : Nat) : 2 ^ w ≤ 16 ^ ((w + 3) / 4) :=
  calc 2 ^ w ≤ 2 ^ (4 * ((w + 3) / 4)) := Nat.pow_le_pow_right (by decide) (by omega)
    _ = 16 ^ ((w + 3) / 4) := by rw [Nat.pow_mul]

/-- A literal that meets its place is written with enough digits. -/
theorem literal_lt_digits {v : Nat} {kind : OperandKind} (h : (Operand.literal v).wellFormed kind = true) :
    v < 16 ^ kind.digits := by
  cases kind with
  | record => exact of_decide_eq_true h
  | bits w => exact (of_decide_eq_true h).trans_le (two_pow_le_digits w)

/-- A record literal that meets its place is 8 bytes long. -/
theorem record_length {bytes : List Byte} {kind : OperandKind} (h : (Operand.record bytes).wellFormed kind = true) :
    bytes.length = 8 := by
  cases kind with
  | record => exact beq_iff_eq.mp h
  | bits w => cases h

section
variable {o : Operand} {kind : OperandKind}

theorem readOperand_write (h : o.wellFormed kind = true) (hkind : 0 < kind.digits) :
    readOperand (o.write kind) = some o := by
  cases o with
  | literal v =>
    have hread : readOperand ((Operand.literal v).write kind) = (readHex (hexText kind.digits v)).map .literal := rfl
    rw [hread, readHex_hexText hkind (literal_lt_digits h), Option.map_some]
  | record bytes =>
    have hread : readOperand ((Operand.record bytes).write kind) = (readRecord (bytesText bytes)).map .record := rfl
    rw [hread, readRecord_bytesText (record_length h), Option.map_some]
  | result dest port =>
    have hname : isName dest = true := by cases kind <;> exact h
    cases port with
    | none   => exact readOperand_name hname
    | some p => exact readOperand_port hname p

theorem isPiece_write (h : o.wellFormed kind = true) : IsPiece (o.write kind) := by
  cases o with
  | literal v =>
    exact isPiece_append_digits (pre := ['0', 'x']) ⟨by decide, by decide, by decide⟩
      fun _ hmem => exists_digit_of_mem_hexText hmem
  | record bytes =>
    exact isPiece_append_digits (pre := ['r', 'e', 'c', '=', '0', 'x']) ⟨by decide, by decide, by decide⟩
      fun _ hmem => exists_digit_of_mem_bytesText hmem
  | result dest port =>
    have hname : isName dest = true := by cases kind <;> exact h
    obtain ⟨ch, rest, hdest, -, -⟩ := isName_cases hname
    obtain ⟨hspace, hcomma, -, -⟩ := isName_not_mem hname
    cases port with
    | none   => exact ⟨by simp [Operand.write, hdest], hspace, hcomma⟩
    | some p =>
      obtain ⟨hspace', hcomma', -⟩ := p.name_not_mem
      exact ⟨by simp [Operand.write], by simp [Operand.write, hspace, hspace'],
        by simp [Operand.write, hcomma, hcomma']⟩

end

/-! ### The pieces between commas -/

theorem splitComma_of_not_mem {t : List Char} (h : ',' ∉ t) : splitComma t = [t] := by
  induction t with
  | nil => rfl
  | cons ch t ih =>
    obtain ⟨hch, ht⟩ := List.ne_and_not_mem_of_not_mem_cons h
    rw [splitComma, if_neg hch.symm, ih ht]

theorem splitComma_append {t : List Char} (h : ',' ∉ t) (u : List Char) :
    splitComma (t ++ ',' :: u) = t :: splitComma u := by
  induction t with
  | nil => rfl
  | cons ch t ih =>
    obtain ⟨hch, ht⟩ := List.ne_and_not_mem_of_not_mem_cons h
    rw [List.cons_append, splitComma, if_neg hch.symm, ih ht]

/-- Splitting undoes joining, but for the space that is written after each comma. -/
theorem splitComma_joinComma {t : List Char} {ts : List (List Char)} (h : ∀ u ∈ t :: ts, ',' ∉ u) :
    splitComma (joinComma (t :: ts)) = t :: ts.map (' ' :: ·) := by
  induction ts generalizing t with
  | nil => exact splitComma_of_not_mem (h t List.mem_cons_self)
  | cons u ts ih =>
    obtain ⟨ht, hrest⟩ := List.forall_mem_cons.mp h
    have hspace : splitComma (' ' :: joinComma (u :: ts)) = (' ' :: u) :: ts.map (' ' :: ·) := by
      rw [splitComma, if_neg (by decide), ih hrest]
    rw [joinComma, splitComma_append ht, hspace, List.map_cons]

theorem readOperands_of_forall₂ {ts : List (List Char)} {os : List Operand}
    (h : List.Forall₂ (fun t o => readOperand (trim t) = some o) ts os) : readOperands ts = some os := by
  induction h with
  | nil => rfl
  | cons ho _ ih => rw [readOperands, ho, ih]

/-- Pieces that read as operands, joined and split again, read as those operands. -/
theorem readOperands_joinComma {ts : List (List Char)} {os : List Operand} (hne : ts ≠ [])
    (h : List.Forall₂ (fun t o => IsPiece t ∧ readOperand t = some o) ts os) :
    readOperands (splitComma (joinComma ts)) = some os := by
  cases h with
  | nil => exact absurd rfl hne
  | @cons t o ts os hfirst hrest =>
    have hpieces : ∀ u ∈ t :: ts, IsPiece u := ((List.forall₂_and_left _ _).mp (.cons hfirst hrest)).1
    rw [splitComma_joinComma fun u hu => (hpieces u hu).no_comma]
    refine readOperands_of_forall₂ (.cons (by rw [hfirst.1.trim_eq, hfirst.2]) ?_)
    rw [List.forall₂_map_left_iff]
    exact hrest.imp fun u p hu => by rw [trim_space_cons, hu.1.trim_eq, hu.2]

/-- A joined text ends as its last piece does. -/
theorem joinComma_getLast? {ts : List (List Char)} (hne : ts ≠ []) (h : ∀ t ∈ ts, IsPiece t) :
    ∃ ch, (joinComma ts).getLast? = some ch ∧ ch ≠ ' ' := by
  match ts, hne with
  | [t], _ =>
    obtain ⟨hnil, hspace, -⟩ := h t List.mem_cons_self
    exact ⟨t.getLast hnil, List.getLast?_eq_some_getLast hnil, fun hl => hspace (hl ▸ List.getLast_mem hnil)⟩
  | t :: u :: ts, _ =>
    obtain ⟨ch, hlast, hch⟩ := joinComma_getLast? (List.cons_ne_nil u ts) (List.forall_mem_cons.mp h).2
    exact ⟨ch, by simp [joinComma, List.getLast?_cons, hlast], hch⟩

/-! ### The line -/

/-- What a line needs of its mnemonic (Laws/PerInstr.lean), for every operation. -/
theorem mnemonic_facts (i : Instr) : Instr.ofMnemonic i.mnemonic.toList = some i ∧ ' ' ∉ i.mnemonic.toList ∧
    i.mnemonic.toList ≠ [] ∧ i.format ≠ [] := by
  have hstatement : Laws.Mnemonic.Statement i := by
    cases i with
    | txidx   => exact Laws.Mnemonic.txidx
    | rxidx   => exact Laws.Mnemonic.rxidx
    | bankkey => exact Laws.Mnemonic.bankkey
    | affdec  => exact Laws.Mnemonic.affdec
    | tonelbl => exact Laws.Mnemonic.tonelbl
    | follow  => exact Laws.Mnemonic.follow
    | fbase   => exact Laws.Mnemonic.fbase
    | txfreq  => exact Laws.Mnemonic.txfreq
    | rxfreq  => exact Laws.Mnemonic.rxfreq
    | decode  => exact Laws.Mnemonic.decode
  obtain ⟨hof, hspaces, hformat⟩ := hstatement
  refine ⟨hof, fun hmem => ?_, fun hnil => ?_, hformat⟩
  · simpa using List.all_eq_true.mp hspaces _ hmem
  · have hempty : Instr.ofMnemonic [] = none := by decide
    simp [hnil, hempty] at hof

/-- Every operand is written with at least one digit. -/
theorem format_digits_pos (i : Instr) : ∀ kind ∈ i.format, 0 < kind.digits := by
  cases i <;> decide

/-- The parts of a well-formed line: its name, and each operand at its place of the format. -/
theorem Line.wellFormed_cases {l : Line} (h : l.wellFormed = true) :
    isName l.dest = true ∧ List.Forall₂ (fun o kind => o.wellFormed kind = true) l.operands l.op.format := by
  simp only [Line.wellFormed, Bool.and_eq_true, beq_iff_eq] at h
  obtain ⟨⟨hname, hlength⟩, hall⟩ := h
  refine ⟨hname, List.forall₂_iff_zip.mpr ⟨hlength, fun hmem => ?_⟩⟩
  exact List.all_eq_true.mp hall _ hmem

/-- The written operands of a line. -/
def Line.pieces (l : Line) : List (List Char) := (l.operands.zip l.op.format).map fun p => p.1.write p.2

theorem Line.write_eq (l : Line) :
    l.write = (l.dest.toList ++ [' ']) ++ '=' :: ' ' :: (l.op.mnemonic.toList ++ ' ' :: joinComma l.pieces) := by
  simp [Line.write, Line.pieces]

/-- Each operand that meets its place is written as a piece that reads as the operand. -/
theorem pieces_read {os : List Operand} {kinds : List OperandKind} (hdigits : ∀ kind ∈ kinds, 0 < kind.digits)
    (h : List.Forall₂ (fun o kind => o.wellFormed kind = true) os kinds) :
    List.Forall₂ (fun t o => IsPiece t ∧ readOperand t = some o) ((os.zip kinds).map fun p => p.1.write p.2) os := by
  induction h with
  | nil => exact .nil
  | cons ho _ ih =>
    obtain ⟨hkind, hrest⟩ := List.forall_mem_cons.mp hdigits
    exact .cons ⟨isPiece_write ho, readOperand_write ho hkind⟩ (ih hrest)

/-- The text behind the `=` loses the space it begins with and no more: a mnemonic has no space in it, and the operands
do not end in one. -/
theorem trim_body {mnemonic body : List Char} {ch : Char} (hspace : ' ' ∉ mnemonic) (hne : mnemonic ≠ [])
    (hlast : body.getLast? = some ch) (hch : ch ≠ ' ') :
    trim (' ' :: (mnemonic ++ ' ' :: body)) = mnemonic ++ ' ' :: body := by
  rw [trim_space_cons]
  refine trim_eq_self ?_ ?_
  · rw [List.head?_append_of_ne_nil _ hne]
    exact fun hhead => hspace (List.mem_of_head? hhead)
  · simpa [List.getLast?_cons, hlast] using hch

/-- Settles O3: the line is cut where it was joined, at its `=`, at the space behind the mnemonic and at its commas, and
each part reads as what was written. -/
theorem readingAWrittenLineGivesItBack : Obligations.ReadingAWrittenLineGivesItBack := by
  intro l h
  obtain ⟨hdest, hoperands⟩ := Line.wellFormed_cases h
  obtain ⟨hspaceDest, -, -, heqDest⟩ := isName_not_mem hdest
  obtain ⟨hmnemonic, hspaceOp, hneOp, hformat⟩ := mnemonic_facts l.op
  have hread := pieces_read (format_digits_pos l.op) hoperands
  have hne : l.pieces ≠ [] := fun hnil => by
    have hlength := hread.length_eq.trans hoperands.length_eq
    have hzero : l.pieces.length = 0 := by rw [hnil]; rfl
    exact hformat (List.length_eq_zero_iff.mp (hlength.symm.trans hzero))
  obtain ⟨ch, hlast, hch⟩ := joinComma_getLast? hne ((List.forall₂_and_left _ _).mp hread).1
  have heq : '=' ∉ l.dest.toList ++ [' '] := by simp [heqDest]
  have hbody := trim_body hspaceOp hneOp hlast hch
  rw [Line.write_eq, readLine, after_append heq, before_append heq]
  simp only [hbody, before_append hspaceOp, after_append hspaceOp, Option.getD_some, trim_append_space hspaceDest,
    readName_toList hdest, hmnemonic, readOperands_joinComma hne hread]

end Sys2Proof
end

