-- ==== Sys2Proof/Proofs/Steps.lean ====
section
/-! What a step does with the host's next request: the load, the refusals, the evaluation of a line and what it leaves
for a later one, and two evaluations in either order (30_encoding.md section 6, 60_exceptions.md section 4,
70_reset_and_hazards.md section 1). -/

namespace Sys2Proof.Machine

/-! ### The load -/

section
variable {s : State} {c : Configuration} {rest : List Request} (hpending : s.pending = .load c :: rest)
include hpending

theorem step_load_legal (hnone : s.config = none) (hlegal : c.legal = true) :
    step s = .next { s with config := some c, pending := rest } := by
  rw [step_serve hpending]
  simp [serve, loadConfiguration, hnone, hlegal]

theorem step_load_illegal (hnone : s.config = none) (hlegal : c.legal = false) :
    step s = .refused .illegalConfiguration := by
  rw [step_serve hpending]
  simp [serve, loadConfiguration, hnone, hlegal]

theorem step_load_again (hsome : s.config ≠ none) : step s = .refused .alreadyInitialised := by
  obtain ⟨d, hd⟩ := Option.ne_none_iff_exists'.mp hsome
  rw [step_serve hpending]
  simp [serve, loadConfiguration, hd]

end

/-- Settles O37, one branch of the load per clause. -/
theorem loadIsOnceAndLegal : Obligations.LoadIsOnceAndLegal := fun _ _ _ hpending =>
  ⟨step_load_legal hpending, step_load_illegal hpending, step_load_again hpending⟩

/-! ### One evaluation -/

section
variable {s : State} {opsel : BitVec 4} {dest : String} {operands : List Operand} {rest : List Request}

theorem step_evaluate (hpending : s.pending = .evaluate opsel dest operands :: rest) :
    step s = evaluate opsel dest operands { s with pending := rest } := step_serve hpending

theorem evaluate_of_present {i : Instr} {t : State} (hdecode : decode opsel = .ok i)
    (hpresent : present i operands s = .ok t) : evaluate opsel dest operands s = endEvaluation t dest (exec i t) := by
  simp only [evaluate, hdecode, hpresent]

theorem evaluate_of_decode_error {e : DecodeError} (hdecode : decode opsel = .error e) :
    evaluate opsel dest operands s = .refused (.noSuchOperation opsel) := by
  simp only [evaluate, hdecode]

/-- An evaluation that drives o is read back under its name. -/
theorem evaluate_of_exec_next {i : Instr} {t : State} {o : Outputs} (hdecode : decode opsel = .ok i)
    (hpresent : present i operands s = .ok t) (hexec : exec i t = .next { t with outputs := some o }) :
    evaluate opsel dest operands s =
      .next { t with outputs := some o, results := (dest, .driven o) :: t.results } := by
  rw [evaluate_of_present hdecode hpresent, hexec, endEvaluation_next]
  rfl

/-- An evaluation that fails is recorded under its name. -/
theorem evaluate_of_exec_fault {i : Instr} {t : State} {f : Fault} (hdecode : decode opsel = .ok i)
    (hpresent : present i operands s = .ok t) (hexec : exec i t = .fault f) :
    evaluate opsel dest operands s =
      .next { t with outputs := none, results := (dest, .failed f) :: t.results } := by
  rw [evaluate_of_present hdecode hpresent, hexec, endEvaluation_fault]
  rfl

/-- A completed evaluation field by field: its operands were presented in u, and it drove its outputs there or
failed. -/
theorem evaluate_next_cases {t : State} (h : evaluate opsel dest operands s = .next t) :
    ∃ i u, decode opsel = .ok i ∧ present i operands s = .ok u ∧
      ((∃ o, exec i u = .next { u with outputs := some o } ∧
        t = { u with outputs := some o, results := (dest, .driven o) :: s.results }) ∨
      ∃ f, exec i u = .fault f ∧ t = { u with outputs := none, results := (dest, .failed f) :: s.results }) := by
  obtain ⟨i, u, hdecode, hpresent, hend⟩ := evaluate_next h
  obtain ⟨values, ports, draws, -, -, rfl⟩ := present_ok hpresent
  refine ⟨i, _, hdecode, hpresent, ?_⟩
  obtain ⟨v, hexec, rfl⟩ | ⟨f, hexec, rfl⟩ := hend
  · obtain ⟨-, o, -, rfl⟩ := exec_next hexec
    exact .inl ⟨o, hexec, rfl⟩
  · exact .inr ⟨f, hexec, rfl⟩

/-- Settles O40: a step that evaluates has no next state without a configuration, and never a fault. -/
theorem evaluationBeforeLoadIsRefused : Obligations.EvaluationBeforeLoadIsRefused := by
  intro s hnone
  refine ⟨exec_of_config_none hnone, fun opsel dest operands rest hpending => ?_⟩
  rw [step_evaluate hpending]
  cases hout : evaluate opsel dest operands { s with pending := rest } with
  | refused q => exact ⟨q, rfl⟩
  | fault f => exact absurd hout (evaluate_ne_fault _ _ _ _ _)
  | next t =>
    obtain ⟨i, u, -, hpresent, hend⟩ := evaluate_next_cases hout
    have hrefused := exec_of_config_none ((present_config hpresent).trans hnone) i
    obtain ⟨o, hexec, -⟩ | ⟨f, hexec, -⟩ := hend <;> simp [hexec] at hrefused

/-- Settles O42: `exec` at the presented state, by its three outcomes. -/
theorem stepRunsTheDecodedOperation : Obligations.StepRunsTheDecodedOperation := by
  intro s t opsel dest operands rest i hpending hdecode hpresent
  obtain ⟨values, ports, draws, -, -, ht⟩ := present_ok hpresent
  have hresults : t.results = s.results := by rw [ht]
  refine ⟨fun o u hexec hout => ?_, fun f hexec => ⟨?_, by rw [ht]⟩, fun q hexec => ?_⟩
  · obtain ⟨-, o', -, rfl⟩ := exec_next hexec
    cases hout
    rw [step_evaluate hpending, evaluate_of_exec_next hdecode hpresent hexec]
  · rw [step_evaluate hpending, evaluate_of_exec_fault hdecode hpresent hexec, hresults]
  · rw [step_evaluate hpending, evaluate_of_present hdecode hpresent, hexec, endEvaluation_refused]

/-- Settles O43: the code decodes to no operation. -/
theorem unknownOpselIsRefused : Obligations.UnknownOpselIsRefused := fun _ _ _ _ _ hpending hge =>
  (step_evaluate hpending).trans (evaluate_of_decode_error (decode_of_ge hge))

end

/-! ### A well-formed line -/

/-- Under a loaded configuration an operation completes, if its record, where it takes one, is 8 bytes long. -/
theorem exec_completes_of_length {i : Instr} {s : State} {c : Configuration} (hc : s.config = some c)
    (hlength : takesRecord i → s.inputs.record.length = 8) :
    ∃ o, exec i s = .next { s with outputs := some o } := by
  by_cases hi : takesRecord i
  · obtain ⟨r, hr⟩ := Record.exists_of_length (hlength hi)
    exact exec_completes hc hr i
  · exact exec_completes_of_not_takesRecord hi hc

/-- The operands of a well-formed line that is ready, each at its place of the format. -/
theorem operands_ready {results : List (String × EvalResult)} {l : Line} (hwf : l.wellFormed = true)
    (hready : lineReady results l = true) :
    List.Forall₂ (fun o kind => o.wellFormed kind = true ∧ operandReady results o kind = true) l.operands
      l.op.format := by
  obtain ⟨-, hoperands⟩ := Line.wellFormed_cases hwf
  obtain ⟨hlength, hall⟩ := List.forall₂_iff_zip.mp hoperands
  exact List.forall₂_iff_zip.mpr ⟨hlength, fun hmem => ⟨hall hmem, List.all_eq_true.mp hready _ hmem⟩⟩

/-- Settles O45: the operands resolve to values that fit, which reach the ports, and on them the operation completes. -/
theorem wellFormedLineCompletes : Obligations.WellFormedLineCompletes := by
  intro s c l rest hc hpending hwf hready
  obtain ⟨values, hvalues, hfits⟩ := resolveAll_ready (operands_ready hwf hready) s.draws
  obtain ⟨ports, hports, hlength⟩ := drivePorts_of_fits hfits s.inputs
  have hpresent := present_of_values (s := { s with pending := rest }) hvalues hports
  obtain ⟨o, hexec⟩ := exec_completes_of_length (i := l.op)
    (s := { s with inputs := ports, pending := rest, draws := s.draws + (l.operands.map (operandDraws s.results)).sum })
    hc hlength
  exact ⟨_, o, (step_evaluate hpending).trans (evaluate_of_exec_next (decode_encode l.op) hpresent hexec), hc, rfl, rfl,
    rfl, rfl⟩

/-! ### Earlier results -/

/-- Settles O46: the evaluation is the latest result of its name. -/
theorem laterLineUsesEarlierResult : Obligations.LaterLineUsesEarlierResult := by
  intro s t opsel dest operands rest o hpending hstep hout
  rw [step_evaluate hpending] at hstep
  obtain ⟨i, u, -, -, ⟨o', -, rfl⟩ | ⟨f, -, rfl⟩⟩ := evaluate_next_cases hstep
  · cases hout
    refine ⟨fun p v hv => resolve_bits ?_ _, fun p v hsole hv => resolve_bits ?_ _⟩
    · rw [referenced_head]
      exact hv
    · rw [referenced_head, Outputs.value, hsole]
      exact hv
  · cases hout

/-- Settles O47: the free value fits the 6-bit port, and with IDXVALID = 0 the table does not look at it. -/
theorem noIndexMeansNoLabel : Obligations.NoIndexMeansNoLabel := by
  intro s c a dest supOk rest hc hfound hsup hpending
  have hvalue : referenced s.results a (some .idx) = some .undriven := by
    rw [referenced, hfound]
    rfl
  have hvalues : resolveAll s.results s.draws [.result a (some .idx), .literal 0, .literal supOk] =
      .ok ([.bits (Config.undrivenIdx s.draws).toNat, .bits 0, .bits supOk], s.draws + 1) :=
    resolveAll_cons (resolve_undriven hvalue _) rfl
  have hports := driveLbl_eq_some_iff (ports := s.inputs).mpr ⟨_, _, _, _, _, _, rfl,
    asBits_of_lt (Config.undrivenIdx s.draws).isLt, asBit_of_lt (v := 0) (by decide), asBit_of_lt hsup, rfl⟩
  have hpresent := present_of_values (i := .tonelbl) (s := { s with pending := rest }) hvalues hports
  exact ⟨_, (step_evaluate hpending).trans (evaluate_of_exec_next rfl hpresent
    (exec_tonelbl_eq hc (toneLabel_no_index _ _).symm)), rfl, hc, rfl⟩

/-! ### Two evaluations in either order -/

/-- The state t is s after an evaluation named dest that ended as r: the record of it is added, and the configuration,
the agenda and the draws stay. -/
structure EndsWith (s : State) (dest : String) (r : EvalResult) (t : State) : Prop where
  config  : t.config = s.config
  results : t.results = (dest, r) :: s.results
  pending : t.pending = s.pending
  draws   : t.draws = s.draws

/-- Operands of the same values in two states with one configuration reach the ports in both, and the operation, which
reads nothing else, has the same outcome. -/
theorem present_repeats {i : Instr} {operands : List Operand} {values : List OperandValue} {s s' : State}
    {ports : Inputs} (hports : drivePorts i values s.inputs = some ports) (hconfig : s'.config = s.config)
    (hvalues : resolveAll s'.results s'.draws operands = .ok (values, s'.draws)) :
    ∃ ports', present i operands s' = .ok { s' with inputs := ports' } ∧
      exec i { s' with inputs := ports' } =
        outcomeAt { s' with inputs := ports' } (exec i { s with inputs := ports }) := by
  obtain ⟨ports', hports', hagree⟩ := drivePorts_agree hports s'.inputs
  refine ⟨ports', present_of_values hvalues hports', exec_outcomeAt ?_ ?_⟩
  · exact hconfig.symm
  · exact hagree

/-- An evaluation ends in the same way wherever the configuration and the values of its operands are the same. -/
theorem evaluate_repeats {opsel : BitVec 4} {dest : String} {operands : List Operand} {values : List OperandValue}
    {s t : State} (h : evaluate opsel dest operands s = .next t)
    (hvalues : resolveAll s.results s.draws operands = .ok (values, s.draws)) :
    ∃ r, EndsWith s dest r t ∧ ∀ s' : State, s'.config = s.config →
      resolveAll s'.results s'.draws operands = .ok (values, s'.draws) →
      ∃ t', evaluate opsel dest operands s' = .next t' ∧ EndsWith s' dest r t' := by
  obtain ⟨i, u, hdecode, hpresent, hend⟩ := evaluate_next_cases h
  obtain ⟨values', ports, draws, hvalues', hports, rfl⟩ := present_ok hpresent
  cases hvalues.symm.trans hvalues'
  obtain ⟨o, hexec, rfl⟩ | ⟨f, hexec, rfl⟩ := hend
  · refine ⟨.driven o, ⟨rfl, rfl, rfl, rfl⟩, fun s' hconfig hs' => ?_⟩
    obtain ⟨ports', hpresent', hexec'⟩ := present_repeats hports hconfig hs'
    exact ⟨_, evaluate_of_exec_next hdecode hpresent' (hexec'.trans (by rw [hexec]; rfl)), ⟨rfl, rfl, rfl, rfl⟩⟩
  · refine ⟨.failed f, ⟨rfl, rfl, rfl, rfl⟩, fun s' hconfig hs' => ?_⟩
    obtain ⟨ports', hpresent', hexec'⟩ := present_repeats hports hconfig hs'
    exact ⟨_, evaluate_of_exec_fault hdecode hpresent' (hexec'.trans (by rw [hexec]; rfl)), ⟨rfl, rfl, rfl, rfl⟩⟩

/-- A run of one more step, of any machine. -/
theorem coreRun_succ_next (M : Host.Core) {k : Nat} {s t : M.State} : M.run (k + 1) s = .next t ↔
    ∃ u, M.step s = .next u ∧ M.run k u = .next t := by
  rw [Host.Core.run]
  cases M.step s <;> simp

theorem run_succ_next {k : Nat} {s t : State} : Host.Core.run core (k + 1) s = .next t ↔
    ∃ u, step s = .next u ∧ Host.Core.run core k u = .next t := coreRun_succ_next core

theorem run_two_next {s t : State} : Host.Core.run core 2 s = .next t ↔
    ∃ u, step s = .next u ∧ step u = .next t := by
  constructor
  · intro h
    obtain ⟨u, hfirst, h⟩ := run_succ_next.mp h
    obtain ⟨v, hsecond, h⟩ := run_succ_next.mp h
    cases h
    exact ⟨u, hfirst, hsecond⟩
  · rintro ⟨u, hfirst, hsecond⟩
    exact run_succ_next.mpr ⟨u, hfirst, run_succ_next.mpr ⟨t, hsecond, rfl⟩⟩

/-- Settles O48: each evaluation repeats in the other order, because the other one changes neither the configuration nor
what its references stand for. -/
theorem evaluationsCommute : Obligations.EvaluationsCommute := by
  intro s t c op op' d d' os os' rest hc hos hos' hpending hrun
  obtain ⟨u, hfirst, hsecond⟩ := run_two_next.mp hrun
  obtain ⟨values, hvalues⟩ := resolveAll_of_independent hos
  obtain ⟨values', hvalues'⟩ := resolveAll_of_independent hos'
  rw [step_evaluate hpending] at hfirst
  obtain ⟨r, hu, hrepeat⟩ := evaluate_repeats hfirst (hvalues _)
  rw [step_evaluate hu.pending] at hsecond
  have hvaluesAfter : resolveAll u.results u.draws os' = .ok (values', u.draws) := by
    rw [hu.results, resolveAll_cons_of_independent hos', hvalues']
  obtain ⟨r', ht, hrepeat'⟩ := evaluate_repeats hsecond hvaluesAfter
  obtain ⟨u', hfirst', hu'⟩ := hrepeat' { s with pending := .evaluate op d os :: rest } hu.config.symm (hvalues' _)
  have hvaluesAfter' : resolveAll u'.results u'.draws os = .ok (values, u'.draws) := by
    rw [hu'.results, resolveAll_cons_of_independent hos, hvalues]
  obtain ⟨t', hsecond', ht'⟩ := hrepeat { u' with pending := rest } hu'.config hvaluesAfter'
  have hstep' : step { s with pending := .evaluate op' d' os' :: .evaluate op d os :: rest } = .next u' :=
    (step_evaluate rfl).trans hfirst'
  refine ⟨r, r', t', run_two_next.mpr ⟨u', hstep', (step_evaluate hu'.pending).trans hsecond'⟩,
    ht.results.trans (congrArg _ hu.results), ht'.results.trans (congrArg _ hu'.results),
    ht.config.trans (hu.config.trans hc), ht'.config.trans (hu'.config.trans hc), ht.pending, ht'.pending, ?_⟩
  rw [ht.draws, ht'.draws]
  exact hu.draws.trans hu'.draws.symm

end Sys2Proof.Machine
end

