-- ==== Sys2Proof/Proofs/Invariants.lean ====
section
/-! The two invariants of the machine: the configuration is legal and the outputs are sound, and the records still to be
presented are complete, so that no evaluation fails (30_encoding.md section 3, 60_exceptions.md section 1,
70_reset_and_hazards.md section 1). -/

namespace Sys2Proof.Machine

/-! ### Sound outputs, unit by unit -/

theorem labelDriven_unknown : labelDriven unknownLabel := .inr rfl

/-- The table drives a tone's code or the sentinel's. -/
theorem labelDriven_toneLabel (idx : RawIndex) (idxValid supOk : Bool) :
    labelDriven (toneLabel idx idxValid supOk) := by
  cases idxValid with
  | false => rw [toneLabel_no_index]; exact labelDriven_unknown
  | true =>
    cases supOk with
    | false => rw [toneLabel_unsupported]; exact labelDriven_unknown
    | true =>
      by_cases hle : idx.toNat ≤ 33
      · rw [toneLabel_of_le hle]
        exact .inl (by rwa [lblCode_toNat])
      · rw [toneLabel_of_gt _ _ (Nat.lt_of_not_le hle)]
        exact labelDriven_unknown

/-- Under legal models an unregistered key gives no index, and a registered one an index that is unmapped above 33. -/
theorem affineDecode_sound {c : Configuration} (hlegal : c.legal = true) (key : Key) (x : Byte) :
    (Outputs.affdec (affineDecode c.bankRegistry key x).1 (affineDecode c.bankRegistry key x).2).sound := by
  cases hm : lookup c.bankRegistry key with
  | none =>
    rw [affineDecode_unregistered hm]
    exact ⟨iff_of_true rfl rfl, by decide, nofun⟩
  | some m =>
    have hmodel := Configuration.model_legal hlegal hm
    obtain ⟨idx, hdecode⟩ := affineDecode_registered hm hmodel x
    rw [hdecode]
    refine ⟨iff_of_false nofun fun hst => ?_, fun hst => ?_, ?_⟩
    · obtain h | h := bankStatus_cases m.sup idx <;> cases h.symm.trans hst
    · obtain h | h := bankStatus_cases m.sup idx <;> cases h.symm.trans hst
    · rintro i ⟨⟩ hgt
      exact bankStatus_of_gt hmodel hgt

/-- What the RX tone path hands on: where the status is not OK there is no label and no follow (42_tone_table.md R141,
R142, 43_follow_resolver.md R161). -/
structure RxTone.Sound (tone : RxTone) : Prop where
  label    : labelDriven tone.label
  status   : tone.status ≠ .malformedInput
  unmapped : tone.status ≠ .ok → tone.label = unknownLabel ∧ tone.zero = false

theorem extractorTone_sound (r : Record) : (extractorTone r).Sound := by
  refine ⟨labelDriven_toneLabel _ _ _, ?_, fun hst => ?_⟩
  · change extractorStatus (rxIndex r) ≠ .malformedInput
    unfold extractorStatus
    split <;> decide
  · have hgt : 33 < (rxIndex r).toNat := by
      by_contra hle
      exact hst (if_pos (Nat.le_of_not_lt hle))
    have hlabel : (extractorTone r).label = toneLabel (rxIndex r) true true := rfl
    refine ⟨hlabel.trans (toneLabel_of_gt _ _ hgt), beq_eq_false_iff_ne.mpr fun hzero => ?_⟩
    simp [hzero] at hgt

theorem affineTone_sound (registry : List (Key × AffineModel)) (key : Key) (x : Byte) :
    (affineTone (affineDecode registry key x)).Sound := by
  obtain hnone | ⟨idx, st, hsome, hst⟩ := affineDecode_cases registry key x
  · rw [hnone]
    exact ⟨labelDriven_unknown, by decide, fun _ => ⟨rfl, rfl⟩⟩
  · rw [hsome]
    obtain rfl | rfl := hst
    · exact ⟨labelDriven_toneLabel _ _ _, nofun, fun h => absurd rfl h⟩
    · exact ⟨labelDriven_toneLabel _ _ _, nofun, fun _ =>
        ⟨(affineTone_label_some _ _).trans (toneLabel_unsupported _ _), rfl⟩⟩

theorem rxTone_sound (c : Configuration) (r : Record) : (rxTone c r).Sound := by
  cases hpath : c.rxPath with
  | extractor => rw [rxTone_extractor hpath]; exact extractorTone_sound r
  | affine => rw [rxTone_affine hpath]; exact affineTone_sound _ _ _

theorem decodeChannel_sound {c : Configuration} (hlegal : c.legal = true) (r : Record) :
    (Outputs.decode (decodeChannel c r)).sound := by
  obtain ⟨hlabel, hstatus, hunmapped⟩ := rxTone_sound c r
  have htx : labelDriven (decodeChannel c r).txLbl := labelDriven_toneLabel _ _ _
  refine ⟨decodeChannel_txFreq_range hlegal r, decodeChannel_rxFreq_range hlegal r, htx,
    labelDriven_followLabel htx hlabel _ _, hstatus, fun hst => ?_⟩
  obtain ⟨hunknown, hzero⟩ := hunmapped hst
  rw [decodeChannel_rxLbl, hzero, followLabel_no_rxZero, hunknown]

theorem fbase_sound (p q : Byte) : (Outputs.fbase (freqPort (baseFreq p q))).sound := by
  obtain ⟨hlo, hhi⟩ := baseFreq_range p q
  refine ⟨?_, ?_, ?_⟩ <;> rw [freqPort_baseFreq_toInt]
  · exact hlo
  · exact hhi
  · exact baseFreq_emod_ten p q

/-- An operation drives one output tuple. -/
theorem driven_unique {i : Instr} {s : State} {o o' : Outputs} (h : exec i s = .next { s with outputs := some o })
    (h' : exec i s = .next { s with outputs := some o' }) : o = o' := by
  cases h.symm.trans h'
  rfl

/-- An operation that completes under a legal configuration drives sound outputs. -/
theorem exec_sound {i : Instr} {s : State} {c : Configuration} {o : Outputs} (hc : s.config = some c)
    (hlegal : c.legal = true) (h : exec i s = .next { s with outputs := some o }) : o.sound := by
  cases i with
  | txidx =>
    obtain ⟨-, r, -, hr, -⟩ := withRecord_next h
    obtain rfl := driven_unique h (exec_txidx hc hr)
    trivial
  | rxidx =>
    obtain ⟨-, r, -, hr, -⟩ := withRecord_next h
    obtain rfl := driven_unique h (exec_rxidx hc hr)
    trivial
  | bankkey =>
    obtain ⟨-, r, -, hr, -⟩ := withRecord_next h
    obtain rfl := driven_unique h (exec_bankkey hc hr)
    trivial
  | affdec =>
    obtain rfl := driven_unique h (exec_affdec hc rfl)
    exact affineDecode_sound hlegal _ _
  | tonelbl =>
    obtain rfl := driven_unique h (exec_tonelbl hc)
    exact labelDriven_toneLabel _ _ _
  | follow =>
    obtain rfl := driven_unique h (exec_follow hc)
    trivial
  | fbase =>
    obtain rfl := driven_unique h (exec_fbase hc)
    exact fbase_sound _ _
  | txfreq =>
    obtain rfl := driven_unique h (exec_txfreq hc rfl)
    exact (txFrequency_range (Configuration.txDelta_legal hlegal) _ _ _).1
  | rxfreq =>
    obtain rfl := driven_unique h (exec_rxfreq hc rfl)
    exact (rxFrequency_range (Configuration.rxDelta_legal hlegal) _ _ _ _).1
  | decode =>
    obtain ⟨-, r, -, hr, -⟩ := withRecord_next h
    obtain rfl := driven_unique h (exec_decode hc hr)
    exact decodeChannel_sound hlegal r

/-! ### The invariant -/

/-- Settles O49: nothing is loaded and nothing was driven. -/
theorem resetMeetsTheInvariant : Obligations.ResetMeetsTheInvariant :=
  ⟨rfl, rfl, nofun, fun _ => ⟨rfl, rfl⟩, nofun, nofun⟩

section
variable {s t : State}

/-- The invariant does not read the agenda. -/
theorem State.Inv.withPending (h : s.Inv) (rest : List Request) : State.Inv { s with pending := rest } :=
  ⟨h.configLegal, h.loadedFirst, h.portsSound, h.readSound⟩

theorem State.Inv.load (h : s.Inv) {c : Configuration} (hlegal : c.legal = true) (rest : List Request) :
    State.Inv { s with config := some c, pending := rest } where
  configLegal := by
    rintro d ⟨⟩
    exact hlegal
  loadedFirst := nofun
  portsSound := h.portsSound
  readSound := h.readSound

/-- An evaluation that ends under the invariant had a legal configuration, and adds at most one output, a sound one. -/
theorem State.Inv.evaluate (hs : s.Inv) {opsel : BitVec 4} {dest : String} {operands : List Operand}
    (h : evaluate opsel dest operands s = .next t) : t.Inv := by
  obtain ⟨i, u, -, hpresent, hend⟩ := evaluate_next_cases h
  obtain ⟨values, ports, draws, -, -, rfl⟩ := present_ok hpresent
  obtain ⟨o, hexec, rfl⟩ | ⟨f, hexec, rfl⟩ := hend
  · obtain ⟨c, -, hc, -⟩ := exec_next hexec
    have hsound : o.sound := exec_sound hc (hs.configLegal c hc) hexec
    refine ⟨hs.configLegal, fun hnone => absurd (hc.symm.trans hnone) nofun, ?_, ?_⟩
    · rintro o' ⟨⟩
      exact hsound
    · rw [List.forall_mem_cons]
      refine ⟨?_, hs.readSound⟩
      rintro o' ⟨⟩
      exact hsound
  · obtain ⟨⟨c, hc⟩, -⟩ := exec_fault hexec
    refine ⟨hs.configLegal, fun hnone => absurd (hc.symm.trans hnone) nofun, nofun, ?_⟩
    rw [List.forall_mem_cons]
    exact ⟨nofun, hs.readSound⟩

end

/-- Settles O50, by what a step can do: nothing, the load, or an evaluation. -/
theorem stepKeepsTheInvariant : Obligations.StepKeepsTheInvariant := by
  intro s t hs hstep
  obtain ⟨-, rfl⟩ | ⟨c, rest, -, -, hlegal, rfl⟩ | ⟨opsel, dest, operands, rest, -, heval⟩ := step_next hstep
  · exact hs
  · exact hs.load hlegal rest
  · exact (hs.withPending rest).evaluate heval

/-! ### Complete records -/

/-- Complete record operands put 8 bytes on the record port: a 64-bit value always does. -/
theorem present_record_length {i : Instr} (hi : takesRecord i) {operands : List Operand} {s t : State}
    (h : present i operands s = .ok t) (hcomplete : ∀ bytes, .record bytes ∈ operands → bytes.length = 8) :
    t.inputs.record.length = 8 := by
  obtain ⟨values, ports, draws, hvalues, hports, rfl⟩ := present_ok h
  rw [drivePorts_of_takesRecord hi] at hports
  obtain ⟨v, bytes, rfl, hbytes, rfl⟩ := driveRec_eq_some hports
  refine asRecord_length hbytes ?_
  rintro bs rfl
  exact hcomplete bs (mem_of_resolveAll_record hvalues List.mem_cons_self)

/-- An evaluation whose record operands are complete does not fail. -/
theorem evaluate_complete {opsel : BitVec 4} {dest : String} {operands : List Operand} {s t : State}
    (h : evaluate opsel dest operands s = .next t)
    (hcomplete : ∀ bytes, .record bytes ∈ operands → bytes.length = 8) :
    t.pending = s.pending ∧ ∃ o, t.results = (dest, .driven o) :: s.results := by
  obtain ⟨i, u, -, hpresent, hend⟩ := evaluate_next_cases h
  obtain ⟨o, -, rfl⟩ | ⟨f, hexec, -⟩ := hend
  · obtain ⟨values, ports, draws, -, -, rfl⟩ := present_ok hpresent
    exact ⟨rfl, o, rfl⟩
  · obtain ⟨-, hlength⟩ := exec_fault hexec
    exact absurd (present_record_length (takesRecord_of_exec_fault hexec) hpresent hcomplete) hlength

section
variable {s t u : State}

theorem noNewFailure_of_results_eq (h : t.results = s.results) : noNewFailure s t := ⟨[], h, nofun⟩

theorem noNewFailure.trans (hst : noNewFailure s t) (htu : noNewFailure t u) : noNewFailure s u := by
  obtain ⟨new, hnew, hdriven⟩ := hst
  obtain ⟨new', hnew', hdriven'⟩ := htu
  refine ⟨new' ++ new, by rw [hnew', hnew, List.append_assoc], fun e he => ?_⟩
  exact (List.mem_append.mp he).elim (hdriven' e) (hdriven e)

/-- A step on a complete agenda takes one request off it and records no failure. -/
theorem step_recordsComplete (hs : s.recordsComplete) (h : step s = .next t) :
    t.recordsComplete ∧ noNewFailure s t := by
  obtain ⟨-, rfl⟩ | ⟨c, rest, hpending, -, -, rfl⟩ | ⟨opsel, dest, operands, rest, hpending, heval⟩ := step_next h
  · exact ⟨hs, noNewFailure_of_results_eq rfl⟩
  · rw [State.recordsComplete, hpending, List.forall_mem_cons] at hs
    exact ⟨hs.2, noNewFailure_of_results_eq rfl⟩
  · rw [State.recordsComplete, hpending, List.forall_mem_cons] at hs
    obtain ⟨hrequest, hrest⟩ := hs
    obtain ⟨hpending', o, hresults⟩ := evaluate_complete heval hrequest
    refine ⟨?_, [(dest, .driven o)], hresults, ?_⟩
    · rw [State.recordsComplete, hpending']
      exact hrest
    · rw [List.forall_mem_singleton]
      exact nofun

theorem loadConfiguration_ne_fault (c : Configuration) (s : State) (f : Fault) : loadConfiguration c s ≠ .fault f := by
  unfold loadConfiguration
  split
  · exact nofun
  · split <;> exact nofun

/-- A fault of `exec` is recorded, and nothing else raises one. -/
theorem step_ne_fault (s : State) (f : Fault) : step s ≠ .fault f := by
  match hpending : s.pending with
  | [] => rw [step_idle hpending]; exact nofun
  | .load c :: rest => rw [step_serve hpending]; exact loadConfiguration_ne_fault c _ f
  | .evaluate opsel dest operands :: rest =>
    rw [step_serve hpending]
    exact evaluate_ne_fault opsel dest operands _ f

end

/-- Settles O55: a step on a complete agenda, and no fault from any step. -/
theorem stepKeepsRecordsComplete : Obligations.StepKeepsRecordsComplete :=
  ⟨fun _ _ => step_recordsComplete, step_ne_fault⟩

/-- A run that ends in a fault ends in that of a step. -/
theorem coreRun_succ_fault (M : Host.Core) {k : Nat} {s : M.State} {f : M.Fault} : M.run (k + 1) s = .fault f ↔
    M.step s = .fault f ∨ ∃ u, M.step s = .next u ∧ M.run k u = .fault f := by
  rw [Host.Core.run]
  cases M.step s <;> simp

theorem run_ne_fault (k : Nat) (s : State) (f : Fault) : Host.Core.run core k s ≠ .fault f := by
  induction k generalizing s with
  | zero => exact nofun
  | succ k ih =>
    intro h
    obtain hfault | ⟨u, -, hrest⟩ := (coreRun_succ_fault core).mp h
    · exact step_ne_fault s f hfault
    · exact ih u hrest

/-- Every step of a run on a complete agenda leaves a complete agenda, so that no step of it records a failure. -/
theorem run_noNewFailure {k : Nat} {s t : State} (hs : s.recordsComplete) (h : Host.Core.run core k s = .next t) :
    noNewFailure s t := by
  induction k generalizing s with
  | zero =>
    cases h
    exact noNewFailure_of_results_eq rfl
  | succ k ih =>
    obtain ⟨u, hstep, hrest⟩ := run_succ_next.mp h
    obtain ⟨hu, hsu⟩ := step_recordsComplete hs hstep
    exact hsu.trans (ih hu hrest)

/-- Settles O51, by induction on the length of the run. -/
theorem completeRecordsNeverFault : Obligations.CompleteRecordsNeverFault := fun s hs k =>
  ⟨run_ne_fault k s, fun _ => run_noNewFailure hs⟩

end Sys2Proof.Machine
end
